-- ==== Sys2Proof/Word.lean ====
section
/-! DEFINITION. The word types of the block (spec 00_scope.md R12, R13): unsigned numbers of 8, 16 and 32 bits. -/

namespace Sys2Proof

/-- A byte, `u8` (R12). -/
abbrev Byte := BitVec 8

/-- `u16`: sequence ids, counts of packets, `req_run` (R13). -/
abbrev U16 := BitVec 16

/-- `u32`: the file size and the scalar operand `a` (R13). -/
abbrev U32 := BitVec 32

end Sys2Proof
end

