-- ==== Sys2Proof/Machine/Flags.lean ====
section
/-! DEFINITION. The checksum (spec 41_checksum.md R130) and the sticky event flags (10_state.md R26). -/

namespace Sys2Proof.Machine

/-- One step of the two running sums, each kept modulo 16 (R130). -/
def fletcherStep (sums : Nat × Nat) (b : Byte) : Nat × Nat :=
  let sum1 := (sums.1 + b.toNat) % 16
  (sum1, (sums.2 + sum1) % 16)

/-- `fletcher8` (R130): both sums start at 0, `sum1` in the low nibble and `sum2` in the high one. -/
def fletcher8 (bytes : List Byte) : Byte :=
  let sums := bytes.foldl fletcherStep (0, 0)
  BitVec.ofNat 8 (sums.1 + 16 * sums.2)

/-- Does a payload field carry the checksum byte `ck` (40_frame_codec.md R107 `ck_ok`, 41_checksum.md R134)? -/
def ckMatches (payload : List Byte) (ck : Byte) : Bool :=
  fletcher8 payload == ck

/-- `EVENTS` bit 0, `JUNK_SEEN` (R26). -/
def junkSeen : BitVec 3 := 0b001#3

/-- `EVENTS` bit 1, `DUP_SEEN` (R26). -/
def dupSeen : BitVec 3 := 0b010#3

/-- `EVENTS` bit 2, `CK_MISMATCH_SEEN` (R26). -/
def ckMismatchSeen : BitVec 3 := 0b100#3

/-- Set a flag; the others stay (R26: sticky). -/
def setFlag (events flag : BitVec 3) : BitVec 3 :=
  events ||| flag

end Sys2Proof.Machine
end

