-- ==== Sys2Proof/Config.lean ====
section
/-! DEFINITION. The fixed numbers of the wire format and the parameters of an implementation (spec 00_scope.md R6 to R9).
The parameters are plain data that State carries and no step changes (log 3), so a claim over all states holds for
every choice of them. -/

namespace Sys2Proof

/-- `FRAME_BYTES` (R6). -/
abbrev frameBytes : Nat := 32

/-- `PAYLOAD_WIDTH` (R6). -/
abbrev payloadWidth : Nat := 29

/-- `IDS_PER_REQUEST` (R8). -/
abbrev idsPerRequest : Nat := 13

/-- `MAX_CK_LEN` (R9), which is also how many bytes the `d` field of a command has (30_encoding.md R90). -/
abbrev maxCkLen : Nat := 32

/-- `PAD_BYTE` (R9). -/
abbrev padByte : Byte := 0x00#8

/-- `TERMINATOR` (R9). -/
abbrev terminator : Byte := 0x00#8

/-- The five control tags, "a protocol version constant" that may be renumbered (R7). -/
structure Tags where
  start            : Byte
  retransmitRequest : Byte
  allClear         : Byte
  prematureEnd     : Byte
  endTag           : Byte
deriving DecidableEq, Repr

/-- The document's tag values (R7). -/
def Tags.default : Tags :=
  { start := 1, retransmitRequest := 2, allClear := 4, prematureEnd := 8, endTag := 9 }

/-- "five pairwise distinct 8-bit values" (R7). -/
abbrev Tags.distinct (t : Tags) : Prop :=
  [t.start, t.retransmitRequest, t.allClear, t.prematureEnd, t.endTag].Nodup

/-- `CHECKSUM_POLICY` (R9, 41_checksum.md R135), left OPEN by the spec (92_eei_decisions.md D10). -/
inductive ChecksumPolicy where
  | inform
  | drop
deriving DecidableEq, Repr

/-- What an implementation fixes (R9). -/
structure Config where
  storeDepth : Nat
  policy     : ChecksumPolicy
  tags       : Tags
deriving DecidableEq, Repr

/-- The spec's defaults: `STORE_DEPTH = 65536`, `INFORM`, the document's tags (R7, R9). -/
def Config.default : Config :=
  { storeDepth := 65536, policy := .inform, tags := Tags.default }

/-- The parameter values the spec admits: `2 ≤ STORE_DEPTH ≤ 65536`, tags pairwise distinct (R7, R9). -/
abbrev Config.valid (c : Config) : Prop :=
  2 ≤ c.storeDepth ∧ c.storeDepth ≤ 65536 ∧ c.tags.distinct

end Sys2Proof
end

