-- ==== Sys2Proof/Syntax.lean ====
section
/-! DEFINITION. The instructions: one constructor per row of spec/opcode_table.json, seven frame variants and twenty command
operations, with typed operands (spec 00_scope.md R14, R15; 30_encoding.md R72 to R91). Byte operands are lists of any
length, so that a command with a wrong length can be written down and refused (30_encoding.md R92). -/

namespace Sys2Proof

/-- One constructor per row of spec/opcode_table.json. -/
inductive Instr where
  /-- `FRAME.DATA`: sequence id, 29 payload bytes, checksum byte (R72). -/
  | frameData (seq : U16) (payload : List Byte) (ck : Byte)
  /-- `FRAME.START` (R76). -/
  | frameStart (fileSize : U32)
  /-- `FRAME.RETRANSMIT_REQUEST`: running count and ids (R78). -/
  | frameRetransmitRequest (reqRun : U16) (ids : List U16)
  /-- `FRAME.ALL_CLEAR` (R79). -/
  | frameAllClear
  /-- `FRAME.PREMATURE_END` (R80). -/
  | framePrematureEnd
  /-- `FRAME.END` (R77). -/
  | frameEnd (totalPackets : U16)
  /-- `FRAME.JUNK`: the unrecognised tag (R85). -/
  | frameJunk (tag : Byte)
  /-- `ENC_DATA seq, P` (40_frame_codec.md R101). -/
  | encData (seq : U16) (p : List Byte)
  /-- `ENC_START file_size` (R102). -/
  | encStart (fileSize : U32)
  /-- `ENC_RREQ req_run, ids` (R103). -/
  | encRreq (reqRun : U16) (ids : List U16)
  /-- `ENC_ALLCLEAR` (R104). -/
  | encAllclear
  /-- `ENC_PREMEND` (R105). -/
  | encPremend
  /-- `ENC_END total_packets` (R106). -/
  | encEnd (totalPackets : U16)
  /-- `DECODE F` (R107). -/
  | decode (f : List Byte)
  /-- `FLETCHER8 bytes` (41_checksum.md R132). -/
  | fletcher8 (bytes : List Byte)
  /-- `VERIFY F` (R134). -/
  | verify (f : List Byte)
  /-- `ALLOC file_size` (42_packet_store.md R142). -/
  | alloc (fileSize : U32)
  /-- `FREE` (R143). -/
  | free
  /-- `PUT seq, P` (R144). -/
  | put (seq : U16) (p : List Byte)
  /-- `GET seq` (R145). -/
  | get (seq : U16)
  /-- `TEST seq` (R146). -/
  | test (seq : U16)
  /-- `MISSING count` (R147). -/
  | missing (count : U16)
  /-- `ASSEMBLE highest_id` (R148). -/
  | assemble (highestId : U16)
  /-- `STAT` (R149). -/
  | stat
  /-- `TX_DATA seq, P` (43_datapath.md R171). -/
  | txData (seq : U16) (p : List Byte)
  /-- `RETX seq` (R172). -/
  | retx (seq : U16)
  /-- `RX_FRAME F` (R173). -/
  | rxFrame (f : List Byte)
deriving DecidableEq, Repr

end Sys2Proof
end

