-- ==== Sys2Proof/Machine/Port.lean ====
section
/-! DEFINITION. The data on the two ports of the block: packet variants (spec 00_scope.md R14), command and response records
(30_encoding.md R90), status and outcome codes (60_exceptions.md R191, R200), and the events the outside world sends. -/

namespace Sys2Proof

/-- The seven packet variants, the result of decoding a frame (00_scope.md R14). `Data` carries the two checksum results
that `DECODE` returns with it (40_frame_codec.md R107). -/
inductive Packet where
  | data (seq : U16) (payload : List Byte) (ckRx : Byte) (ckOk : Bool)
  | start (fileSize : U32)
  | retransmitRequest (reqRun : U16) (ids : List U16)
  | allClear
  | prematureEnd
  | endPacket (totalPackets : U16)
  | junk (tag : Byte)
deriving DecidableEq, Repr

/-- A command record (30_encoding.md R90). `d` lists the lanes of the byte operand from lane 0 up (log 5). -/
structure Command where
  op : Byte
  a  : U32 := 0
  b  : U16 := 0
  n  : Byte := 0
  d  : List Byte := []
deriving DecidableEq, Repr

/-- What can be put before the block to run: a command record, or a wire frame (the table's two spaces, log 4). -/
inductive PortWord where
  | command (c : Command)
  | frame (f : List Byte)
deriving DecidableEq, Repr

/-- What the outside world does next: it issues something to run, or asserts the reset input, between operations or
during one (60_exceptions.md R202, 70_reset_and_hazards.md R220). -/
inductive HostEvent where
  | issue (w : PortWord)
  | reset
  | resetDuring (w : PortWord)
deriving DecidableEq, Repr

/-- The status codes (60_exceptions.md R191). -/
inductive Status where
  | ok
  | notAllocated
  | busy
  | range
  | unwritten
  | incomplete
  | tooLarge
  | badLen
  | badOp
deriving DecidableEq, Repr

/-- The outcome codes of `RX_FRAME` (60_exceptions.md R200). -/
inductive RxOutcome where
  | stored
  | duplicate
  | control
  | junk
  | cksumDropped
deriving DecidableEq, Repr

/-- The response record (30_encoding.md R90), a field an operation does not use being absent; `responsePort` gives the
record with its numbers. -/
structure Response where
  status  : Status := .ok
  outcome : Option RxOutcome := none
  r       : U32 := 0
  pkt     : Option Packet := none
  q       : List Byte := []
deriving DecidableEq, Repr

/-- The `pkt` record of the response port (30_encoding.md R90): `kind` and every variant's fields, 0 where unused. -/
structure PortPacket where
  kind         : Byte := 0
  seq          : U16 := 0
  payload      : List Byte := []
  ckRx         : Byte := 0
  ckOk         : BitVec 1 := 0
  fileSize     : U32 := 0
  totalPackets : U16 := 0
  reqRun       : U16 := 0
  ids          : List U16 := []
  tag          : Byte := 0
deriving DecidableEq, Repr

/-- The response record as the port shows it (30_encoding.md R90). -/
structure PortResponse where
  status  : Byte
  outcome : Byte
  r       : U32
  pkt     : PortPacket
  q       : List Byte
deriving DecidableEq, Repr

end Sys2Proof
end

