-- ==== Sys2Proof/Machine/Operands.lean ====
section
/-! DEFINITION. Operand forms: little-endian numbers (spec 00_scope.md R13, 30_encoding.md R74), padded payloads, the layouts of
the frames (30_encoding.md R71 to R82), the decoder of frames (40_frame_codec.md R107), slot numbers and lengths. -/

namespace Sys2Proof.Machine

/-! ## Numbers as bytes (R13) -/

/-- `lo8(v)`. -/
def lo8 (v : U16) : Byte := BitVec.ofNat 8 (v.toNat % 256)

/-- `hi8(v)`. -/
def hi8 (v : U16) : Byte := BitVec.ofNat 8 (v.toNat / 256)

/-- `le16(b0, b1)`. -/
def le16 (b0 b1 : Byte) : U16 := BitVec.ofNat 16 (b0.toNat + 256 * b1.toNat)

/-- `le32(b0, b1, b2, b3)`. -/
def le32 (b0 b1 b2 b3 : Byte) : U32 :=
  BitVec.ofNat 32 (b0.toNat + 2 ^ 8 * b1.toNat + 2 ^ 16 * b2.toNat + 2 ^ 24 * b3.toNat)

/-- `bytes_le16(v)`. -/
def bytesLe16 (v : U16) : List Byte := [lo8 v, hi8 v]

/-- `bytes_le32(v)`. -/
def bytesLe32 (v : U32) : List Byte :=
  [BitVec.ofNat 8 v.toNat, BitVec.ofNat 8 (v.toNat / 2 ^ 8), BitVec.ofNat 8 (v.toNat / 2 ^ 16),
   BitVec.ofNat 8 (v.toNat / 2 ^ 24)]

/-- `zeros(n)`. -/
def zeros (n : Nat) : List Byte := List.replicate n 0x00#8

/-- `pad29(P)` (R13, with `PAD_BYTE`). -/
def pad29 (p : List Byte) : List Byte := p ++ List.replicate (payloadWidth - p.length) padByte

/-- Byte `i` of a byte sequence, `F[i]`. -/
def byteAt (f : List Byte) (i : Nat) : Byte := f.getD i 0

/-! ## Frames (30_encoding.md R71 to R82) -/

/-- The layout of a data frame (R72) with a given checksum byte. -/
def dataFrameWith (seq : U16) (payload : List Byte) (ck : Byte) : List Byte :=
  bytesLe16 seq ++ payload ++ [ck]

/-- A data frame whose checksum covers the whole payload field (R72, 41_checksum.md R133). -/
def dataFrame (seq : U16) (payload : List Byte) : List Byte :=
  dataFrameWith seq payload (fletcher8 payload)

/-- A control frame (R73): marker, tag, the 29 bytes of the payload field, terminator; bytes the variant does not use
are 0 (R81, R82). -/
def controlFrame (tag : Byte) (fields : List Byte) : List Byte :=
  [0x00#8, tag] ++ fields ++ zeros (payloadWidth - fields.length) ++ [terminator]

/-- `Start` (R76). -/
def startFrame (t : Tags) (fileSize : U32) : List Byte :=
  controlFrame t.start (bytesLe32 fileSize)

/-- `RetransmitRequest` (R78): count, `req_run`, ids. -/
def requestFrame (t : Tags) (reqRun : U16) (ids : List U16) : List Byte :=
  controlFrame t.retransmitRequest
    (BitVec.ofNat 8 ids.length :: bytesLe16 reqRun ++ ids.flatMap bytesLe16)

/-- `AllClear` (R79). -/
def allClearFrame (t : Tags) : List Byte := controlFrame t.allClear []

/-- `PrematureEnd` (R80). -/
def prematureEndFrame (t : Tags) : List Byte := controlFrame t.prematureEnd []

/-- `End` (R77). -/
def endFrame (t : Tags) (totalPackets : U16) : List Byte :=
  controlFrame t.endTag (bytesLe16 totalPackets)

/-- The payload field of a frame, `F[2..30]` (R71). -/
def framePayload (f : List Byte) : List Byte := (f.drop 2).take payloadWidth

/-- `F[31]`, checksum or terminator (R71). -/
def frameLast (f : List Byte) : Byte := byteAt f 31

/-- The first `c` ids of a request frame, `le16(F[5+2i], F[6+2i])` (R78). -/
def frameIds (f : List Byte) (c : Nat) : List U16 :=
  (List.range c).map fun i => le16 (byteAt f (5 + 2 * i)) (byteAt f (6 + 2 * i))

/-- Unpacks a frame (40_frame_codec.md R107), in the order of 30_encoding.md R84. -/
def decodePacket (t : Tags) (f : List Byte) : Packet :=
  if byteAt f 0 ≠ 0x00#8 then
    .data (le16 (byteAt f 0) (byteAt f 1)) (framePayload f) (frameLast f)
      (ckMatches (framePayload f) (frameLast f))
  else if byteAt f 1 = t.start then
    .start (le32 (byteAt f 2) (byteAt f 3) (byteAt f 4) (byteAt f 5))
  else if byteAt f 1 = t.retransmitRequest then
    if idsPerRequest < (byteAt f 2).toNat then .junk (byteAt f 1)
    else .retransmitRequest (le16 (byteAt f 3) (byteAt f 4)) (frameIds f (byteAt f 2).toNat)
  else if byteAt f 1 = t.allClear then .allClear
  else if byteAt f 1 = t.prematureEnd then .prematureEnd
  else if byteAt f 1 = t.endTag then .endPacket (le16 (byteAt f 2) (byteAt f 3))
  else .junk (byteAt f 1)

/-! ## Slot numbers and lengths -/

/-- `ceil_div(file_size, 29)`, without overflow (42_packet_store.md R142). -/
def packetCount (fileSize : U32) : Nat := (fileSize.toNat + (payloadWidth - 1)) / payloadWidth

/-- `last_len` (10_state.md R29). -/
def lastLen (fileSize : U32) (n : U16) : Nat :=
  if n.toNat = 0 then 0 else fileSize.toNat - payloadWidth * (n.toNat - 1)

/-- The slot numbers `1, 2, ..., c`, in increasing order. -/
def slotIds (c : Nat) : List Nat := (List.range c).map (· + 1)

/-- The flat byte address of byte 0 of a slot (20_memory.md R52). -/
def slotAddr (slot : Nat) : Nat := payloadWidth * slot

/-! ## The records as the port shows them (30_encoding.md R90, R91; 60_exceptions.md R191, R200) -/

/-- Status codes (R191). -/
def statusCode : Status → Byte
  | .ok => 0x00#8
  | .notAllocated => 0x01#8
  | .busy => 0x02#8
  | .range => 0x03#8
  | .unwritten => 0x04#8
  | .incomplete => 0x05#8
  | .tooLarge => 0x06#8
  | .badLen => 0x07#8
  | .badOp => 0x08#8

/-- Outcome codes (R200). -/
def outcomeCode : RxOutcome → Byte
  | .stored => 0#8
  | .duplicate => 1#8
  | .control => 2#8
  | .junk => 3#8
  | .cksumDropped => 4#8

/-- The `pkt` record of a variant, with its `kind` (R90). -/
def packetPort : Packet → PortPacket
  | .data seq payload ckRx ckOk =>
    { kind := 0, seq := seq, payload := payload, ckRx := ckRx, ckOk := BitVec.ofBool ckOk }
  | .start z => { kind := 1, fileSize := z }
  | .retransmitRequest run ids => { kind := 2, reqRun := run, ids := ids }
  | .allClear => { kind := 4 }
  | .prematureEnd => { kind := 8 }
  | .endPacket t => { kind := 9, totalPackets := t }
  | .junk tag => { kind := 255, tag := tag }

/-- The response record on the port: a field that is not used is 0 (R90). -/
def responsePort (r : Response) : PortResponse :=
  { status := statusCode r.status
    outcome := match r.outcome with
      | none => 0
      | some o => outcomeCode o
    r := r.r
    pkt := match r.pkt with
      | none => {}
      | some p => packetPort p
    q := r.q }

end Sys2Proof.Machine
end

