-- ==== Sys2Proof/WellFormed.lean ====
section
/-! DEFINITION. Well-formed instructions and port words: the operand lengths the spec admits (spec 60_exceptions.md R198), and for a
frame row the field values its layout admits (30_encoding.md R72, R78, R85). The check depends on the control tags
because `FRAME.JUNK` is what no other row matches. -/

namespace Sys2Proof

/-- An instruction with operands of the lengths and values its row admits. -/
def Instr.wf (t : Tags) : Instr → Bool
  | .frameData seq payload _ => Machine.lo8 seq != 0#8 && payload.length == payloadWidth
  | .frameStart _ => true
  | .frameRetransmitRequest _ ids => decide (ids.length ≤ idsPerRequest)
  | .frameAllClear => true
  | .framePrematureEnd => true
  | .frameEnd _ => true
  | .frameJunk tag =>
    tag != t.start && tag != t.allClear && tag != t.prematureEnd && tag != t.endTag
  | .encData _ p => decide (p.length ≤ payloadWidth)
  | .encStart _ => true
  | .encRreq _ ids => decide (ids.length ≤ idsPerRequest)
  | .encAllclear => true
  | .encPremend => true
  | .encEnd _ => true
  | .decode f => f.length == frameBytes
  | .fletcher8 bytes => decide (bytes.length ≤ maxCkLen)
  | .verify f => f.length == frameBytes
  | .alloc _ => true
  | .free => true
  | .put _ p => decide (p.length ≤ payloadWidth)
  | .get _ => true
  | .test _ => true
  | .missing _ => true
  | .assemble _ => true
  | .stat => true
  | .txData _ p => decide (p.length ≤ payloadWidth)
  | .retx _ => true
  | .rxFrame f => f.length == frameBytes

/-- A word the ports can carry: a command's `d` has up to 32 bytes (30_encoding.md R90), a frame has 32 (R70). -/
def PortWord.wf : PortWord → Bool
  | .command c => decide (c.d.length ≤ maxCkLen)
  | .frame f => f.length == frameBytes

end Sys2Proof
end

