-- ==== Sys2Proof/Decode.lean ====
section
/-! DEFINITION. The decoder of the two ports (spec 30_encoding.md R84, R90 to R92) and, after it, the encoder written from the same
tables. The decoder is total and rejects by the status the block answers with. -/

namespace Sys2Proof

open Machine

/-- What the decoder makes of a port word: an instruction, or the status it is refused with (R92). -/
inductive Decoded where
  | instr (i : Instr)
  | reject (st : Status)
deriving DecidableEq, Repr

/-! ## Commands -/

/-- Lane `i` of the `d` field: 32 lanes, those the record does not list are 0 (R90, log 5). -/
def Command.lane (c : Command) (i : Nat) : Byte :=
  if i < maxCkLen then c.d.getD i 0 else 0

/-- The byte operand: `n` bytes of `d` (R90). -/
def Command.byteOperand (c : Command) : List Byte :=
  (List.range c.n.toNat).map c.lane

/-- The id operand of `ENC_RREQ`: `n` little-endian pairs of `d` (R90). -/
def Command.idOperand (c : Command) : List U16 :=
  (List.range c.n.toNat).map fun i => le16 (c.lane (2 * i)) (c.lane (2 * i + 1))

/-- A 16-bit operand in `a`: "16 bits used, upper 16 must be 0" (R90), else `BAD_OP` (R92). -/
def Command.withU16 (c : Command) (k : U16 → Instr) : Decoded :=
  if c.a.toNat < 65536 then .instr (k (BitVec.ofNat 16 c.a.toNat)) else .reject .badOp

/-- The operation codes (R91); any other code is refused with `BAD_OP` (R92). -/
def decodeCommand (c : Command) : Decoded :=
  match c.op.toNat with
  | 0x10 => c.withU16 fun seq => .encData seq c.byteOperand
  | 0x11 => .instr (.encStart c.a)
  | 0x12 => .instr (.encRreq c.b c.idOperand)
  | 0x14 => .instr .encAllclear
  | 0x18 => .instr .encPremend
  | 0x19 => c.withU16 fun t => .encEnd t
  | 0x1F => .instr (.decode c.byteOperand)
  | 0x20 => .instr (.fletcher8 c.byteOperand)
  | 0x21 => .instr (.verify c.byteOperand)
  | 0x30 => .instr (.alloc c.a)
  | 0x31 => .instr .free
  | 0x32 => c.withU16 fun seq => .put seq c.byteOperand
  | 0x33 => c.withU16 fun seq => .get seq
  | 0x34 => c.withU16 fun seq => .test seq
  | 0x35 => c.withU16 fun count => .missing count
  | 0x36 => c.withU16 fun h => .assemble h
  | 0x37 => .instr .stat
  | 0x40 => c.withU16 fun seq => .txData seq c.byteOperand
  | 0x41 => c.withU16 fun seq => .retx seq
  | 0x42 => .instr (.rxFrame c.byteOperand)
  | _ => .reject .badOp

/-! ## Frames -/

/-- The frame row a packet variant belongs to. -/
def packetRow : Packet → Instr
  | .data seq payload ckRx _ => .frameData seq payload ckRx
  | .start z => .frameStart z
  | .retransmitRequest run ids => .frameRetransmitRequest run ids
  | .allClear => .frameAllClear
  | .prematureEnd => .framePrematureEnd
  | .endPacket total => .frameEnd total
  | .junk tag => .frameJunk tag

/-- A frame of 32 bytes is some frame row (R84: the cases "cover all 2^256 frames"); another length is refused as
`DECODE` refuses it (40_frame_codec.md R107). -/
def decodeFrame (t : Tags) (f : List Byte) : Decoded :=
  if f.length = frameBytes then .instr (packetRow (decodePacket t f)) else .reject .badLen

/-- The decoder of everything that can be put before the block. -/
def decode (t : Tags) : PortWord → Decoded
  | .command c => decodeCommand c
  | .frame f => decodeFrame t f

/-! ## Words of bits, as spec/opcode_table.json numbers them -/

/-- The `k` least significant bytes of a number, the lowest first. -/
def bytesOfNat : Nat → Nat → List Byte
  | 0, _ => []
  | k + 1, w => BitVec.ofNat 8 w :: bytesOfNat k (w / 256)

/-- A command record from bytes: the fields in the order R90 lists them, each number little-endian, then `d`; bytes that
are not there are 0 (log 5). Total on any bytes. -/
def Command.ofBytes (l : List Byte) : Command :=
  { op := byteAt l 0
    a := le32 (byteAt l 1) (byteAt l 2) (byteAt l 3) (byteAt l 4)
    b := le16 (byteAt l 5) (byteAt l 6)
    n := byteAt l 7
    d := (l.drop 8).take maxCkLen }

/-- The same record as bytes. -/
def Command.toBytes (c : Command) : List Byte :=
  c.op :: bytesLe32 c.a ++ bytesLe16 c.b ++ c.n :: c.d

/-- The port word a table word stands for (log 6): 8 bits are the op of a command whose other fields are 0, but for the
value 0, which no command has and which is `FRAME.JUNK`'s row; more bits are a frame. -/
def tableWord (nbits w : Nat) : PortWord :=
  if nbits ≤ 8 ∧ w % 256 ≠ 0 then .command (Command.ofBytes (bytesOfNat 8 w))
  else .frame (bytesOfNat frameBytes w)

/-- The instruction the decoder reads from a table word, with the default tags. -/
def decodeTableWord (nbits w : Nat) : Option Instr :=
  match decode Tags.default (tableWord nbits w) with
  | .instr i => some i
  | .reject _ => none

/-! ## The encoder -/

/-- The record of an operation with code `op` and byte operand `p`. -/
def byteCommand (op : Byte) (a : U32) (p : List Byte) : Command :=
  { op := op, a := a, n := BitVec.ofNat 8 p.length, d := p }

/-- A 16-bit operand in the `a` field, upper bits 0 (R90). -/
def scalar16 (v : U16) : U32 := BitVec.ofNat 32 v.toNat

/-- A spelling of `FRAME.JUNK`: the tag, and for the request tag a count no request may have (R84, R87). It belongs to
the table's row and to no operation of the block (40_frame_codec.md R109, log 13). -/
def junkFrame (tag : Byte) : List Byte := controlFrame tag [0xFF#8]

/-- The port word of an instruction: a command record by R91's codes, a frame by the layout of its row. -/
def encode (t : Tags) : Instr → PortWord
  | .frameData seq payload ck => .frame (dataFrameWith seq payload ck)
  | .frameStart z => .frame (startFrame t z)
  | .frameRetransmitRequest run ids => .frame (requestFrame t run ids)
  | .frameAllClear => .frame (allClearFrame t)
  | .framePrematureEnd => .frame (prematureEndFrame t)
  | .frameEnd total => .frame (endFrame t total)
  | .frameJunk tag => .frame (junkFrame tag)
  | .encData seq p => .command (byteCommand 0x10#8 (scalar16 seq) p)
  | .encStart z => .command { op := 0x11#8, a := z }
  | .encRreq run ids =>
    .command { op := 0x12#8, b := run, n := BitVec.ofNat 8 ids.length, d := ids.flatMap bytesLe16 }
  | .encAllclear => .command { op := 0x14#8 }
  | .encPremend => .command { op := 0x18#8 }
  | .encEnd total => .command { op := 0x19#8, a := scalar16 total }
  | .decode f => .command (byteCommand 0x1F#8 0 f)
  | .fletcher8 bytes => .command (byteCommand 0x20#8 0 bytes)
  | .verify f => .command (byteCommand 0x21#8 0 f)
  | .alloc z => .command { op := 0x30#8, a := z }
  | .free => .command { op := 0x31#8 }
  | .put seq p => .command (byteCommand 0x32#8 (scalar16 seq) p)
  | .get seq => .command { op := 0x33#8, a := scalar16 seq }
  | .test seq => .command { op := 0x34#8, a := scalar16 seq }
  | .missing count => .command { op := 0x35#8, a := scalar16 count }
  | .assemble h => .command { op := 0x36#8, a := scalar16 h }
  | .stat => .command { op := 0x37#8 }
  | .txData seq p => .command (byteCommand 0x40#8 (scalar16 seq) p)
  | .retx seq => .command { op := 0x41#8, a := scalar16 seq }
  | .rxFrame f => .command (byteCommand 0x42#8 0 f)

end Sys2Proof
end

