-- ==== Sys2Proof/Machine/State.lean ====
section
/-! DEFINITION. The state of the block (spec 10_state.md), the model's faults and refusals, and the state after reset. -/

namespace Sys2Proof.Machine

/-- Why the model stops. The spec stops nowhere (93_implementation_defined.md: "no input stops it"); both faults are
reached only from states that break the invariants of 10_state.md R30. -/
inductive Fault where
  /-- Raised by `GET`, `RETX` and `ASSEMBLE` when a slot's bit is set and a byte of the slot was never written: the slot
  holds no value (20_memory.md R59, log 7). Safe: no run reaches such a state. -/
  | slotHoldsNoValue
  /-- Raised by every operation that passes the checks of 20_memory.md R51 with a slot number or count that is not below
  `STORE_DEPTH`: such a slot does not exist (R58, log 8). Safe: `N < STORE_DEPTH` in every reachable state. -/
  | noSuchSlot
deriving DecidableEq, Repr

/-- An instruction the model gives no meaning. -/
inductive Refusal where
  /-- Raised by `exec` alone, for an instruction without a meaning; there is none. Safe. -/
  | notModelled (mnemonic : String)
deriving DecidableEq, Repr

/-- The payload RAM (10_state.md R28) by flat byte address (20_memory.md R52): address and byte, addresses strictly
rising. An address that is not listed holds no value (20_memory.md R59, log 7). -/
abbrev Memory := List Host.Cell

/-- The bitmap (10_state.md R27): the numbers of the slots whose bit is 1, strictly rising. -/
abbrev Bitmap := List Nat

/-- The state of the block (10_state.md R22 to R28), with the parameters it was built with (R31, log 3) and the model's
two port fields (log 1, log 2). -/
structure State where
  cfg           : Config
  allocated     : Bool
  fileSize      : U32
  expectedCount : U16
  storedCount   : U16
  events        : BitVec 3
  bits          : Bitmap
  mem           : Memory
  input         : List HostEvent
  response      : Response
deriving DecidableEq, Repr

/-- The state right after reset (10_state.md R33), built with the default parameters (log 3, log 10), with nothing
written to the payload RAM, no host event pending (log 1) and the response port at 0 (log 2). -/
def State.reset : State :=
  { cfg := Config.default
    allocated := false
    fileSize := 0
    expectedCount := 0
    storedCount := 0
    events := 0b000#3
    bits := []
    mem := []
    input := []
    response := {} }

/-- How an operation ends. -/
abbrev Result := Host.Outcome State Fault Refusal

/-- What the block takes up next: an instruction to run, or an event that is settled without one. -/
inductive Fetched where
  | settled (s : State)
  | run (i : Instr) (s : State)
deriving DecidableEq, Repr

end Sys2Proof.Machine
end

