-- ==== Sys2Proof/Machine/Ops.lean ====
section
/-! DEFINITION. The named operations over the state: payload RAM, bitmap, response, the error mechanism (spec 60_exceptions.md R190),
the checks common to the store operations (42_packet_store.md R141), and taking up what the host issues. -/

namespace Sys2Proof.Machine

/-! ## Payload RAM (20_memory.md R50, R52) -/

/-- The form of the payload RAM: addresses strictly rising, so each is listed once. -/
abbrev Memory.wf (m : Memory) : Prop := m.Pairwise fun x y => x.1 < y.1

/-- The byte at an address; none where nothing was written (R59). -/
def Memory.read : Memory → Nat → Option Byte
  | [], _ => none
  | cell :: m, a => if cell.1 = a then some cell.2 else Memory.read m a

/-- Write one byte, keeping the addresses rising. -/
def Memory.write : Memory → Nat → Byte → Memory
  | [], a, v => [(a, v)]
  | cell :: m, a, v =>
    if a < cell.1 then (a, v) :: cell :: m
    else if a = cell.1 then (a, v) :: m
    else cell :: Memory.write m a v

/-- `MemRead(addr, n)` (00_scope.md R13); none if one of the bytes holds no value. -/
def Memory.readBytes (m : Memory) : Nat → Nat → Option (List Byte)
  | _, 0 => some []
  | a, n + 1 =>
    match Memory.read m a, Memory.readBytes m (a + 1) n with
    | some b, some rest => some (b :: rest)
    | _, _ => none

/-- `MemWrite(addr, n, v)` (00_scope.md R13). -/
def Memory.writeBytes (m : Memory) (a : Nat) : List Byte → Memory
  | [] => m
  | v :: vs => Memory.writeBytes (Memory.write m a v) (a + 1) vs

/-! ## Bitmap (10_state.md R27) -/

/-- The form of the bitmap: slot numbers strictly rising. -/
abbrev Bitmap.wf (b : Bitmap) : Prop := b.Pairwise fun x y => x < y

/-- `BIT[s]`. -/
def Bitmap.test (b : Bitmap) (slot : Nat) : Bool := b.contains slot

/-- `BIT[s] <- 1`. -/
def Bitmap.set : Bitmap → Nat → Bitmap
  | [], slot => [slot]
  | x :: b, slot =>
    if slot < x then slot :: x :: b
    else if slot = x then x :: b
    else x :: Bitmap.set b slot

/-! ## Slots -/

/-- `BIT[s]` of the state. -/
def State.bit (s : State) (slot : Nat) : Bool := Bitmap.test s.bits slot

/-- `SLOT[s] = MemRead(29*s, 29)` (20_memory.md R52). -/
def State.readSlot (s : State) (slot : Nat) : Option (List Byte) :=
  Memory.readBytes s.mem (slotAddr slot) payloadWidth

/-- Store a padded payload, set the bit, count the slot if its bit was 0 (42_packet_store.md R144, one transition by
20_memory.md R56). -/
def State.storeSlot (s : State) (slot : Nat) (payload : List Byte) : State :=
  { s with
    mem := Memory.writeBytes s.mem (slotAddr slot) payload
    bits := Bitmap.set s.bits slot
    storedCount := if s.bit slot then s.storedCount else s.storedCount + 1 }

/-- Set a flag of `EVENTS` (10_state.md R26). -/
def State.setEvent (s : State) (flag : BitVec 3) : State :=
  { s with events := setFlag s.events flag }

/-- The empty state of 10_state.md R33, the payload RAM as it was: what `FREE` leaves (42_packet_store.md R143). -/
def State.emptied (s : State) : State :=
  { s with
    allocated := false
    fileSize := 0
    expectedCount := 0
    storedCount := 0
    events := 0b000#3
    bits := [] }

/-- The open, empty store of a session for a file of `fileSize` bytes (42_packet_store.md R142); the payload RAM and
`EVENTS` as they were. -/
def State.opened (s : State) (fileSize : U32) : State :=
  { s with
    fileSize := fileSize
    expectedCount := BitVec.ofNat 16 (packetCount fileSize)
    storedCount := 0
    bits := []
    allocated := true }

/-! ## Responses and errors -/

/-- Put a response on the response port (30_encoding.md R90). -/
def State.respond (s : State) (r : Response) : State := { s with response := r }

/-- An operation completes (00_scope.md R11). -/
def State.done (s : State) (r : Response) : Result := .next (s.respond r)

/-- The response of a refused operation: the status, "and zeros elsewhere" (60_exceptions.md R190). -/
def errorResponse (st : Status) : Response := { status := st }

/-- What an error does to the state (R190): nothing but the response; nothing is saved and nothing is entered (R204). -/
def State.refuse (s : State) (st : Status) : State := s.respond (errorResponse st)

/-- `raise <Error>` (R190). The block goes on with the next operation; there is no return (R205). -/
def State.raise (s : State) (st : Status) : Result := .next (s.refuse st)

/-- `BAD_LEN` unless the operand has an admitted length (60_exceptions.md R198). -/
def State.withLength (s : State) (admitted : Bool) (k : Result) : Result :=
  if admitted then k else s.raise .badLen

/-- The checks of an operation that names a slot (42_packet_store.md R141, 20_memory.md R51), in the order of
60_exceptions.md R203; a slot that is not below `STORE_DEPTH` does not exist (R58, log 8). -/
def State.withSlot (s : State) (seq : U16) (k : Nat → Result) : Result :=
  if s.allocated = false then s.raise .notAllocated
  else if seq.toNat < 1 ∨ s.expectedCount.toNat < seq.toNat then s.raise .range
  else if s.cfg.storeDepth ≤ seq.toNat then .fault .noSuchSlot
  else k seq.toNat

/-- The checks of an operation that names a count or a highest id (20_memory.md R51). -/
def State.withCount (s : State) (count : U16) (k : Nat → Result) : Result :=
  if s.allocated = false then s.raise .notAllocated
  else if s.expectedCount.toNat < count.toNat then s.raise .range
  else if s.cfg.storeDepth ≤ count.toNat then .fault .noSuchSlot
  else k count.toNat

/-- The payload of a slot whose bit is 1; `UNWRITTEN` if it is 0 (42_packet_store.md R145, 20_memory.md R59). -/
def State.withStored (s : State) (seq : U16) (k : List Byte → Result) : Result :=
  s.withSlot seq fun slot =>
    if s.bit slot then
      match s.readSlot slot with
      | some payload => k payload
      | none => .fault .slotHoldsNoValue
    else s.raise .unwritten

/-- The 11 bytes of `STAT` (42_packet_store.md R149). -/
def State.statBytes (s : State) : List Byte :=
  [if s.allocated then 1 else 0] ++ bytesLe32 s.fileSize ++ bytesLe16 s.expectedCount
    ++ bytesLe16 s.storedCount ++ [BitVec.ofNat 8 (lastLen s.fileSize s.expectedCount)]
    ++ [s.events.setWidth 8]

/-! ## Taking up what the host does -/

/-- The hardware reset (70_reset_and_hazards.md R220, R221): the empty state, payload RAM untouched (92_eei_decisions.md
D21), the response port at 0 (log 9). -/
def State.hardReset (s : State) : State := s.emptied.respond {}

/-- Take the next host event (log 1). Nothing pending: the block waits. A reset abandons the operation it meets, which
has "no effect that survives" (R220). A command that cannot be read is refused (30_encoding.md R92). -/
def State.fetch (s : State) : Fetched :=
  match s.input with
  | [] => .settled s
  | .reset :: rest => .settled { s with input := rest }.hardReset
  | .resetDuring _ :: rest => .settled { s with input := rest }.hardReset
  | .issue w :: rest =>
    match decode s.cfg.tags w with
    | .instr i => .run i { s with input := rest }
    | .reject st => .settled ({ s with input := rest }.refuse st)

/-- A port word placed where the next step takes it up. -/
def State.place (s : State) (w : PortWord) : State := { s with input := .issue w :: s.input }

end Sys2Proof.Machine
end

