-- ==== Sys2Proof/Machine/Checksum.lean ====
section
/-! DEFINITION. The checksum operations (spec 41_checksum.md R132, R134): pure. -/

namespace Sys2Proof.Machine

/-- `FLETCHER8` (R132): the checksum, zero-extended. -/
def execFletcher8 (bytes : List Byte) (s : State) : Result :=
  s.withLength (decide (bytes.length ≤ maxCkLen)) (s.done { r := (fletcher8 bytes).setWidth 32 })

/-- `VERIFY` (R134): `F[0]` and `F[1]` are not looked at. -/
def execVerify (f : List Byte) (s : State) : Result :=
  s.withLength (f.length == frameBytes)
    (s.done { r := if ckMatches (framePayload f) (frameLast f) then 1 else 0 })

end Sys2Proof.Machine
end

