-- ==== Sys2Proof/Machine/Codec.lean ====
section
/-! DEFINITION. The frame codec operations (spec 40_frame_codec.md R101 to R107): pure, they write the response and nothing else. -/

namespace Sys2Proof.Machine

/-- `ENC_DATA` (R101). -/
def execEncData (seq : U16) (p : List Byte) (s : State) : Result :=
  s.withLength (decide (p.length ≤ payloadWidth)) (s.done { q := dataFrame seq (pad29 p) })

/-- `ENC_START` (R102). -/
def execEncStart (fileSize : U32) (s : State) : Result :=
  s.done { q := startFrame s.cfg.tags fileSize }

/-- `ENC_RREQ` (R103). -/
def execEncRreq (reqRun : U16) (ids : List U16) (s : State) : Result :=
  s.withLength (decide (ids.length ≤ idsPerRequest)) (s.done { q := requestFrame s.cfg.tags reqRun ids })

/-- `ENC_ALLCLEAR` (R104). -/
def execEncAllclear (s : State) : Result :=
  s.done { q := allClearFrame s.cfg.tags }

/-- `ENC_PREMEND` (R105). -/
def execEncPremend (s : State) : Result :=
  s.done { q := prematureEndFrame s.cfg.tags }

/-- `ENC_END` (R106). -/
def execEncEnd (totalPackets : U16) (s : State) : Result :=
  s.done { q := endFrame s.cfg.tags totalPackets }

/-- `DECODE` (R107). -/
def execDecode (f : List Byte) (s : State) : Result :=
  s.withLength (f.length == frameBytes) (s.done { pkt := some (decodePacket s.cfg.tags f) })

end Sys2Proof.Machine
end

