-- ==== Sys2Proof/Machine/Datapath.lean ====
section
/-! DEFINITION. The composite data-path operations (spec 43_datapath.md R171 to R173). -/

namespace Sys2Proof.Machine

/-- `TX_DATA` (R171). -/
def execTxData (seq : U16) (p : List Byte) (s : State) : Result :=
  s.withLength (decide (p.length ≤ payloadWidth))
    (s.withSlot seq fun slot => (s.storeSlot slot (pad29 p)).done { q := dataFrame seq (pad29 p) })

/-- `RETX` (R172). -/
def execRetx (seq : U16) (s : State) : Result :=
  s.withStored seq fun payload => s.done { q := dataFrame seq payload }

/-- The flag a received data frame sets when its checksum does not match (R173), under either policy. -/
def State.noteChecksum (s : State) (ckOk : Bool) : State :=
  if ckOk then s else s.setEvent ckMismatchSeen

/-- The `Data` arm of `RX_FRAME` (R173): range, then checksum, then duplicate, then store. -/
def receiveData (seq : U16) (payload : List Byte) (ckOk : Bool) (pkt : Packet) (s : State) : Result :=
  s.withSlot seq fun slot =>
    if ckOk = false ∧ s.cfg.policy = .drop then
      (s.noteChecksum ckOk).done { outcome := some .cksumDropped, pkt := some pkt }
    else if s.bit slot then
      ((s.noteChecksum ckOk).setEvent dupSeen).done { outcome := some .duplicate, pkt := some pkt }
    else
      ((s.noteChecksum ckOk).storeSlot slot payload).done { outcome := some .stored, pkt := some pkt }

/-- What the receive path does with a decoded packet (R173). -/
def receivePacket (pkt : Packet) (s : State) : Result :=
  match pkt with
  | .junk _ => (s.setEvent junkSeen).done { outcome := some .junk, pkt := some pkt }
  | .start _ => s.done { outcome := some .control, pkt := some pkt }
  | .endPacket _ => s.done { outcome := some .control, pkt := some pkt }
  | .retransmitRequest _ _ => s.done { outcome := some .control, pkt := some pkt }
  | .allClear => s.done { outcome := some .control, pkt := some pkt }
  | .prematureEnd => s.done { outcome := some .control, pkt := some pkt }
  | .data seq payload _ ckOk => receiveData seq payload ckOk pkt s

/-- `RX_FRAME` (R173). -/
def execRxFrame (f : List Byte) (s : State) : Result :=
  s.withLength (f.length == frameBytes) (receivePacket (decodePacket s.cfg.tags f) s)

end Sys2Proof.Machine
end

