-- ==== Sys2Proof/Machine/Frames.lean ====
section
/-! DEFINITION. The frame rows of the table: each is what its decode_rule (spec 40_frame_codec.md R107) gives for a frame of that
variant, as `DECODE` answers it, with no change of state (log 4). -/

namespace Sys2Proof.Machine

/-- `FRAME.DATA` (R72, R107): the payload, the received checksum and whether it matches. -/
def execFrameData (seq : U16) (payload : List Byte) (ck : Byte) (s : State) : Result :=
  s.done { pkt := some (.data seq payload ck (ckMatches payload ck)) }

/-- `FRAME.START` (R76, R107). -/
def execFrameStart (fileSize : U32) (s : State) : Result :=
  s.done { pkt := some (.start fileSize) }

/-- `FRAME.RETRANSMIT_REQUEST` (R78, R107). -/
def execFrameRetransmitRequest (reqRun : U16) (ids : List U16) (s : State) : Result :=
  s.done { pkt := some (.retransmitRequest reqRun ids) }

/-- `FRAME.ALL_CLEAR` (R79, R107). -/
def execFrameAllClear (s : State) : Result :=
  s.done { pkt := some .allClear }

/-- `FRAME.PREMATURE_END` (R80, R107). -/
def execFramePrematureEnd (s : State) : Result :=
  s.done { pkt := some .prematureEnd }

/-- `FRAME.END` (R77, R107). -/
def execFrameEnd (totalPackets : U16) (s : State) : Result :=
  s.done { pkt := some (.endPacket totalPackets) }

/-- `FRAME.JUNK` (R85, R107): "an ordinary result". -/
def execFrameJunk (tag : Byte) (s : State) : Result :=
  s.done { pkt := some (.junk tag) }

end Sys2Proof.Machine
end

