-- ==== Sys2Proof/Machine/Store.lean ====
section
/-! DEFINITION. The packet store operations (spec 42_packet_store.md R142 to R149). -/

namespace Sys2Proof.Machine

/-- `ALLOC` (R142). -/
def execAlloc (fileSize : U32) (s : State) : Result :=
  if s.allocated then s.raise .busy
  else if s.cfg.storeDepth < packetCount fileSize + 1 then s.raise .tooLarge
  else (s.opened fileSize).done { r := BitVec.ofNat 32 (packetCount fileSize) }

/-- `FREE` (R143). -/
def execFree (s : State) : Result :=
  s.emptied.done {}

/-- `PUT` (R144). -/
def execPut (seq : U16) (p : List Byte) (s : State) : Result :=
  s.withLength (decide (p.length ≤ payloadWidth))
    (s.withSlot seq fun slot => (s.storeSlot slot (pad29 p)).done {})

/-- `GET` (R145). -/
def execGet (seq : U16) (s : State) : Result :=
  s.withStored seq fun payload => s.done { q := payload }

/-- `TEST` (R146). -/
def execTest (seq : U16) (s : State) : Result :=
  s.withSlot seq fun slot => s.done { r := if s.bit slot then 1 else 0 }

/-- `MISSING` (R147): each id as 2 bytes little-endian. -/
def execMissing (count : U16) (s : State) : Result :=
  s.withCount count fun c =>
    let ids := (slotIds c).filter fun slot => !s.bit slot
    s.done
      { r := BitVec.ofNat 32 ids.length
        q := ids.flatMap fun slot => bytesLe16 (BitVec.ofNat 16 slot) }

/-- How many bytes `ASSEMBLE h` takes from slot `h` (R148). -/
def assembleTail (s : State) (h : Nat) : Nat :=
  if h = s.expectedCount.toNat then lastLen s.fileSize s.expectedCount else payloadWidth

/-- `ASSEMBLE` (R148). The bytes of slots 1 to `h`, the last one cut to its tail, are the bytes at addresses 29 up, in
increasing order (20_memory.md R52). -/
def execAssemble (highestId : U16) (s : State) : Result :=
  s.withCount highestId fun h =>
    if (slotIds h).all s.bit then
      if h = 0 then s.done {}
      else
        let length := payloadWidth * (h - 1) + assembleTail s h
        match Memory.readBytes s.mem (slotAddr 1) length with
        | some bytes => s.done { r := BitVec.ofNat 32 length, q := bytes }
        | none => .fault .slotHoldsNoValue
    else s.raise .incomplete

/-- `STAT` (R149). -/
def execStat (s : State) : Result :=
  s.done { q := s.statBytes }

end Sys2Proof.Machine
end

