-- ==== Sys2Proof/Machine/Dispatch.lean ====
section
/-! DEFINITION. One arm per constructor of Instr, each one call of that instruction's meaning. -/

namespace Sys2Proof.Machine

/-- What an instruction does. -/
def exec (i : Instr) (s : State) : Host.Outcome State Fault Refusal :=
  match i with
  -- frame variants
  | .frameData seq payload ck => Sys2Proof.Machine.execFrameData seq payload ck s
  | .frameStart fileSize => Sys2Proof.Machine.execFrameStart fileSize s
  | .frameRetransmitRequest reqRun ids => Sys2Proof.Machine.execFrameRetransmitRequest reqRun ids s
  | .frameAllClear => Sys2Proof.Machine.execFrameAllClear s
  | .framePrematureEnd => Sys2Proof.Machine.execFramePrematureEnd s
  | .frameEnd totalPackets => Sys2Proof.Machine.execFrameEnd totalPackets s
  | .frameJunk tag => Sys2Proof.Machine.execFrameJunk tag s
  -- frame codec
  | .encData seq p => Sys2Proof.Machine.execEncData seq p s
  | .encStart fileSize => Sys2Proof.Machine.execEncStart fileSize s
  | .encRreq reqRun ids => Sys2Proof.Machine.execEncRreq reqRun ids s
  | .encAllclear => Sys2Proof.Machine.execEncAllclear s
  | .encPremend => Sys2Proof.Machine.execEncPremend s
  | .encEnd totalPackets => Sys2Proof.Machine.execEncEnd totalPackets s
  | .decode f => Sys2Proof.Machine.execDecode f s
  -- checksum
  | .fletcher8 bytes => Sys2Proof.Machine.execFletcher8 bytes s
  | .verify f => Sys2Proof.Machine.execVerify f s
  -- packet store
  | .alloc fileSize => Sys2Proof.Machine.execAlloc fileSize s
  | .free => Sys2Proof.Machine.execFree s
  | .put seq p => Sys2Proof.Machine.execPut seq p s
  | .get seq => Sys2Proof.Machine.execGet seq s
  | .test seq => Sys2Proof.Machine.execTest seq s
  | .missing count => Sys2Proof.Machine.execMissing count s
  | .assemble highestId => Sys2Proof.Machine.execAssemble highestId s
  | .stat => Sys2Proof.Machine.execStat s
  -- data path
  | .txData seq p => Sys2Proof.Machine.execTxData seq p s
  | .retx seq => Sys2Proof.Machine.execRetx seq s
  | .rxFrame f => Sys2Proof.Machine.execRxFrame f s

end Sys2Proof.Machine
end

