-- ==== Sys2Proof/Machine/Step.lean ====
section
/-! DEFINITION. One step of the block: one host event taken up and, if it is an instruction, run (spec 00_scope.md R10). -/

namespace Sys2Proof.Machine

/-- One step (log 1). -/
def step (s : State) : Host.Outcome State Fault Refusal :=
  match s.fetch with
  | .settled s' => .next s'
  | .run i s' => exec i s'

/-- The state with the instruction of a table word issued next. -/
def State.withFetchWord (s : State) (nbits w : Nat) : State :=
  s.place (tableWord nbits w)

end Sys2Proof.Machine
end

