-- ==== Sys2Proof/Safety.lean ====
section
/-! DEFINITION. What a sound state is: the invariants of spec 10_state.md R30, the admitted parameters, and the form of the store;
and the one slot an instruction may write. -/

namespace Sys2Proof.Machine

/-- How many slots of `1..c` have their bit set (10_state.md R25). -/
def State.setBits (s : State) (c : Nat) : Nat := ((slotIds c).filter s.bit).length

/-- 10_state.md R30 items 1 to 4. -/
structure State.StoreSound (s : State) : Prop where
  /-- Item 1. -/
  empty : s.allocated = false → s.fileSize = 0 ∧ s.expectedCount = 0 ∧ s.storedCount = 0 ∧ ∀ slot, s.bit slot = false
  /-- Item 2, `N = ceil_div(FILE_SIZE, 29)`. -/
  sized : s.allocated = true → s.expectedCount.toNat = packetCount s.fileSize
  /-- Item 2, `N + 1 ≤ STORE_DEPTH`. -/
  fits : s.allocated = true → s.expectedCount.toNat + 1 ≤ s.cfg.storeDepth
  /-- Item 3. -/
  inRange : ∀ slot, s.bit slot = true → 1 ≤ slot ∧ slot ≤ s.expectedCount.toNat
  /-- Item 4. -/
  counted : s.storedCount.toNat = s.setBits s.expectedCount.toNat

/-- The store's data in its form: addresses and slot numbers strictly rising, RAM only between slot 1 and the end of
the address space (10_state.md R28), every slot whose bit is set holding 29 bytes (R30 item 5). -/
structure State.StoreFormed (s : State) : Prop where
  memWf : Memory.wf s.mem
  bitsWf : Bitmap.wf s.bits
  memRange : ∀ cell ∈ s.mem, slotAddr 1 ≤ cell.1 ∧ cell.1 < slotAddr s.cfg.storeDepth
  held : ∀ slot, s.bit slot = true → ∀ k, k < payloadWidth → (Memory.read s.mem (slotAddr slot + k)).isSome = true

/-- The invariant of the block. -/
structure State.Inv (s : State) : Prop where
  valid : s.cfg.valid
  sound : s.StoreSound
  formed : s.StoreFormed

/-- The slot an instruction stores into where it stores at all: the id `PUT` and `TX_DATA` name (42_packet_store.md R144,
43_datapath.md R171), the id of the data frame `RX_FRAME` is given (R173); none for every other. -/
def writtenSlot (t : Tags) : Instr → Option Nat
  | .put seq _ => some seq.toNat
  | .txData seq _ => some seq.toNat
  | .rxFrame f =>
    match decodePacket t f with
    | .data seq _ _ _ => some seq.toNat
    | .start _ | .retransmitRequest _ _ | .allClear | .prematureEnd | .endPacket _ | .junk _ => none
  | .frameData _ _ _ | .frameStart _ | .frameRetransmitRequest _ _ | .frameAllClear | .framePrematureEnd
  | .frameEnd _ | .frameJunk _ | .encData _ _ | .encStart _ | .encRreq _ _ | .encAllclear | .encPremend | .encEnd _
  | .decode _ | .fletcher8 _ | .verify _ | .alloc _ | .free | .get _ | .test _ | .missing _ | .assemble _ | .stat
  | .retx _ => none

end Sys2Proof.Machine
end

