-- ==== Sys2Proof/Certificates/Slice0/Obligations.lean ====
section
/-! DEFINITION. The statements for the provers, each from numbered rules of the spec. -/

open Sys2Proof Sys2Proof.Machine

namespace Sys2Proof.Claims

/-- Byte `i` of a byte sequence as a number, 0 beyond its end. -/
def num (l : List Byte) (i : Nat) : Nat := (l.getD i 0).toNat

/-- The operation is refused with `st`: the state is `s` but for a response of `st` "and zeros elsewhere" (R190). -/
def refusedWith (i : Instr) (s : State) (st : Status) : Prop :=
  exec i s = .next { s with response := { status := st } }

/-- The operation completes with the response `r` and changes nothing else. -/
def answers (i : Instr) (s : State) (r : Response) : Prop :=
  exec i s = .next { s with response := r }

/-- `t` is `s` after the 29 bytes `pay 0 .. pay 28` were stored in `slot` (42_packet_store.md R144): the slot's bytes,
its bit, the count, and every other byte, bit and register as before. -/
structure storedIn (s t : State) (slot : Nat) (pay : Nat → Byte) : Prop where
  bytes : ∀ k, k < 29 → Memory.read t.mem (29 * slot + k) = some (pay k)
  otherBytes : ∀ a, a < 29 * slot ∨ 29 * slot + 29 ≤ a → Memory.read t.mem a = Memory.read s.mem a
  bitSet : t.bit slot = true
  otherBits : ∀ x, x ≠ slot → t.bit x = s.bit x
  count : t.storedCount = if s.bit slot = true then s.storedCount else s.storedCount + 1
  registers : t.allocated = s.allocated ∧ t.fileSize = s.fileSize ∧ t.expectedCount = s.expectedCount
    ∧ t.cfg = s.cfg ∧ t.input = s.input

/-- The padded payload byte by byte (00_scope.md R13 `pad29`). -/
def padded (p : List Byte) (k : Nat) : Byte := if k < p.length then p.getD k 0 else 0x00#8

/-- `q` is the data frame of `seq` over the 29 payload bytes `pay` (30_encoding.md R72, 41_checksum.md R133). -/
structure isDataFrame (q : List Byte) (seq : U16) (pay : Nat → Byte) : Prop where
  length : q.length = 32
  low : num q 0 = seq.toNat % 256
  high : num q 1 = seq.toNat / 256
  payload : ∀ k, k < 29 → q.getD (2 + k) 0 = pay k
  checksum : q.getD 31 0 = fletcher8 ((q.drop 2).take 29)

/-- The operations that name a slot (20_memory.md R51). -/
def namedSlot : Instr → Option U16
  | .put seq _ => some seq
  | .get seq => some seq
  | .test seq => some seq
  | .txData seq _ => some seq
  | .retx seq => some seq
  | _ => none

/-- The operations that name a count or a highest id (20_memory.md R51). -/
def namedCount : Instr → Option U16
  | .missing c => some c
  | .assemble h => some h
  | _ => none

/-- The operations that write the store or the flags (10_state.md R22 to R28). -/
def writesState : Instr → Bool
  | .alloc _ | .free | .put _ _ | .txData _ _ | .rxFrame _ => true
  | .frameData _ _ _ | .frameStart _ | .frameRetransmitRequest _ _ | .frameAllClear | .framePrematureEnd
  | .frameEnd _ | .frameJunk _ | .encData _ _ | .encStart _ | .encRreq _ _ | .encAllclear | .encPremend | .encEnd _
  | .decode _ | .fletcher8 _ | .verify _ | .get _ | .test _ | .missing _ | .assemble _ | .stat | .retx _ => false

/-- Is this `RX_FRAME`? -/
def isRxFrame : Instr → Bool
  | .rxFrame _ => true
  | _ => false

/-- The operation codes of 30_encoding.md R91 whose operand `a` has 16 bits. -/
def scalarCodes : List Byte :=
  [0x10#8, 0x19#8, 0x32#8, 0x33#8, 0x34#8, 0x35#8, 0x36#8, 0x40#8, 0x41#8]

/-- The operation codes of 30_encoding.md R91 that use no `a`, or 32 bits of it. -/
def otherCodes : List Byte :=
  [0x11#8, 0x12#8, 0x14#8, 0x18#8, 0x1F#8, 0x20#8, 0x21#8, 0x30#8, 0x31#8, 0x37#8, 0x42#8]

/-- The payload of packet `slot` of a file: bytes `29*(slot-1)` up, at most 29 of them (20_memory.md R54). -/
def chunk (file : List Byte) (slot : Nat) : List Byte := (file.drop (29 * (slot - 1))).take 29

/-- The data frame the sender makes for packet `slot` of a file (43_datapath.md R171). -/
def fileFrame (file : List Byte) (slot : Nat) : List Byte :=
  dataFrame (BitVec.ofNat 16 slot) (pad29 (chunk file slot))

/-- Run the operations one after another (20_memory.md R60). -/
def runAll : List Instr → State → Result
  | [], s => .next s
  | i :: rest, s =>
    match exec i s with
    | .next t => runAll rest t
    | .fault f => .fault f
    | .refused r => .refused r

/-- Two states that hold the same in everything an operation may show: all registers and bits, and the bytes of the
slots whose bit is 1; bytes of other slots may differ (20_memory.md R59). -/
structure sameStored (s t : State) : Prop where
  registers : t = { s with mem := t.mem }
  bytes : ∀ slot, s.bit slot = true → ∀ k, k < 29 →
    Memory.read s.mem (29 * slot + k) = Memory.read t.mem (29 * slot + k)

/-- An operand of a length the operation does not admit (60_exceptions.md R198). -/
def badLength : Instr → Bool
  | .encData _ p => decide (29 < p.length)
  | .encRreq _ ids => decide (13 < ids.length)
  | .decode f => f.length != 32
  | .fletcher8 bytes => decide (32 < bytes.length)
  | .verify f => f.length != 32
  | .put _ p => decide (29 < p.length)
  | .txData _ p => decide (29 < p.length)
  | .rxFrame f => f.length != 32
  | _ => false

/-- The status an instruction of a sound state answers with: the first that applies in the order of 60_exceptions.md
R203, items 2 to 7. -/
def firstStatus (i : Instr) (s : State) : Status :=
  if badLength i = true then .badLen
  else match i with
    | .alloc z =>
      if s.allocated = true then .busy
      else if s.cfg.storeDepth < (z.toNat + 28) / 29 + 1 then .tooLarge else .ok
    | .put seq _ | .test seq | .txData seq _ =>
      if s.allocated = false then .notAllocated
      else if seq.toNat = 0 ∨ seq.toNat > s.expectedCount.toNat then .range else .ok
    | .get seq | .retx seq =>
      if s.allocated = false then .notAllocated
      else if seq.toNat = 0 ∨ seq.toNat > s.expectedCount.toNat then .range
      else if s.bit seq.toNat = false then .unwritten else .ok
    | .missing c =>
      if s.allocated = false then .notAllocated
      else if c.toNat > s.expectedCount.toNat then .range else .ok
    | .assemble h =>
      if s.allocated = false then .notAllocated
      else if h.toNat > s.expectedCount.toNat then .range
      else if (slotIds h.toNat).any (fun x => !s.bit x) = true then .incomplete else .ok
    | .rxFrame f =>
      match decodePacket s.cfg.tags f with
      | .data seq _ _ _ =>
        if s.allocated = false then .notAllocated
        else if seq.toNat > s.expectedCount.toNat then .range else .ok
      | _ => .ok
    | _ => .ok

end Sys2Proof.Claims

open Sys2Proof.Claims

/-! ## Reset and the step -/

/-- 10_state.md R33, 70_reset_and_hazards.md R221: the registers, flags and bits after reset, both in the model's state
after reset and after the reset input in any state. That the parameters stay, the payload RAM is left as it was and the
rest of the input stays is the model's (log 3, log 9). -/
def Obligations.ResetLeavesTheEmptyState : Prop :=
  (∀ slot, State.reset.bit slot = false)
  ∧ State.reset.allocated = false ∧ State.reset.fileSize = 0 ∧ State.reset.expectedCount = 0
  ∧ State.reset.storedCount = 0 ∧ State.reset.events = 0
  ∧ ∀ (s : State) (rest : List HostEvent), s.input = .reset :: rest →
    ∃ t, step s = .next t ∧ t.allocated = false ∧ t.fileSize = 0 ∧ t.expectedCount = 0 ∧ t.storedCount = 0
      ∧ t.events = 0 ∧ (∀ slot, t.bit slot = false) ∧ t.mem = s.mem ∧ t.cfg = s.cfg ∧ t.input = rest

/-- 70_reset_and_hazards.md R220, 42_packet_store.md R143: the reset input and `FREE` end in the same state (every field of
10_state.md), and a reset that arrives during an operation ends as a reset without it. That the reset input leaves the
payload RAM as `FREE` does (`t.mem = u.mem`) and is one event with the operation it abandons is the model's (log 9). -/
def Obligations.ResetAndFreeEndInTheSameState : Prop :=
  ∀ (s : State) (w : PortWord) (rest : List HostEvent),
    step { s with input := .resetDuring w :: rest } = step { s with input := .reset :: rest }
    ∧ ∃ t u, step { s with input := .reset :: rest } = .next t ∧ exec .free s = .next u
      ∧ t.allocated = u.allocated ∧ t.fileSize = u.fileSize ∧ t.expectedCount = u.expectedCount
      ∧ t.storedCount = u.storedCount ∧ t.events = u.events ∧ t.bits = u.bits ∧ t.mem = u.mem

/-- What a step adds around `exec` (log 1): it takes the next event off the input; a word that decodes is run, a word
that does not is refused with the decoder's status, and with nothing pending the block waits. -/
def Obligations.StepRunsTheDecodedInstruction : Prop :=
  (∀ (s : State) (w : PortWord) (rest : List HostEvent) (i : Instr),
    s.input = .issue w :: rest → decode s.cfg.tags w = .instr i → step s = exec i { s with input := rest })
  ∧ (∀ (s : State) (w : PortWord) (rest : List HostEvent) (st : Status),
    s.input = .issue w :: rest → decode s.cfg.tags w = .reject st →
      step s = .next { s with input := rest, response := { status := st } })
  ∧ (∀ s : State, s.input = [] → step s = .next s)

/-- 60_exceptions.md R199, 30_encoding.md R90 to R92: `BAD_OP` is answered exactly for an `op` that R91 does not list and for
a 16-bit operand with a nonzero bit above it, and then nothing but the response changes. That an operation without an
operand in `a` is not refused for a nonzero `a` is the model's reading of R90 and R92 (log 16); that the codes are those
of R91 whatever the control tags are is the model's too (log 14). -/
def Obligations.BadOpIsForUnreadableCommands : Prop :=
  ∀ (s : State) (c : Command) (rest : List HostEvent), s.input = .issue (.command c) :: rest →
    (((c.op ∉ scalarCodes ∧ c.op ∉ otherCodes) ∨ (c.op ∈ scalarCodes ∧ 65536 ≤ c.a.toNat))
      ↔ ∃ t, step s = .next t ∧ t.response.status = .badOp)
    ∧ (((c.op ∉ scalarCodes ∧ c.op ∉ otherCodes) ∨ (c.op ∈ scalarCodes ∧ 65536 ≤ c.a.toNat)) →
      step s = .next { s with input := rest, response := { status := .badOp } })

/-! ## Encodings -/

/-- Tier 3: no bit of an encoding is lost. For every choice of distinct tags and every well-formed instruction, with
every operand its encoding admits, decoding the encoded word gives the instruction back (30_encoding.md R72 to R91).
The spelling of `FRAME.JUNK` is the model's (log 13). -/
def Obligations.DecodeUndoesEncode : Prop :=
  ∀ (t : Tags) (i : Instr), t.distinct → i.wf t = true → decode t (encode t i) = .instr i

/-- Words written out from spec 95_test_vectors.md and the opcode table decode to what they stand for. -/
def Obligations.WordsOfTheSpecDecode : Prop :=
  decode Tags.default (.command { op := 0x11#8, a := 0x64#32 }) = .instr (.encStart 100)
  ∧ decode Tags.default (.command { op := 0x12#8, b := 1#16, n := 1#8, d := [0x02#8, 0x00#8] })
      = .instr (.encRreq 1 [2])
  ∧ decode Tags.default (.command { op := 0x40#8, a := 0x100#32, n := 1#8, d := [0xE3#8] })
      = .instr (.txData 256 [0xE3#8])
  ∧ decode Tags.default (.frame ([0x00#8, 0x01#8, 0x64#8] ++ List.replicate 29 0x00#8)) = .instr (.frameStart 100)
  ∧ decode Tags.default (.frame ([0x00#8, 0x09#8, 0x04#8] ++ List.replicate 29 0x00#8)) = .instr (.frameEnd 4)

/-- 40_frame_codec.md R107, with 30_encoding.md R84's cases: what `DECODE` answers for every operand, for any distinct
tags; a wrong length is `BAD_LEN`; no state is written. -/
def Obligations.DecodeClassifiesEveryFrame : Prop :=
  ∀ (s : State) (f : List Byte), s.cfg.tags.distinct →
    (f.length ≠ 32 → refusedWith (.decode f) s .badLen)
    ∧ (f.length = 32 → ∃ pkt, answers (.decode f) s { pkt := some pkt }
      ∧ (num f 0 ≠ 0 → ∃ seq : U16, ∃ ok : Bool,
          pkt = .data seq ((f.drop 2).take 29) (f.getD 31 0) ok
          ∧ seq.toNat = num f 0 + 256 * num f 1
          ∧ (ok = true ↔ fletcher8 ((f.drop 2).take 29) = f.getD 31 0))
      ∧ (num f 0 = 0 → f.getD 1 0 = s.cfg.tags.start → ∃ z : U32, pkt = .start z
          ∧ z.toNat = num f 2 + 2 ^ 8 * num f 3 + 2 ^ 16 * num f 4 + 2 ^ 24 * num f 5)
      ∧ (num f 0 = 0 → f.getD 1 0 = s.cfg.tags.retransmitRequest → num f 2 > 13 → pkt = .junk (f.getD 1 0))
      ∧ (num f 0 = 0 → f.getD 1 0 = s.cfg.tags.retransmitRequest → num f 2 ≤ 13 →
          ∃ run : U16, ∃ ids : List U16, pkt = .retransmitRequest run ids
          ∧ run.toNat = num f 3 + 256 * num f 4 ∧ ids.length = num f 2
          ∧ ∀ j, j < num f 2 → (ids.getD j 0).toNat = num f (5 + 2 * j) + 256 * num f (6 + 2 * j))
      ∧ (num f 0 = 0 → f.getD 1 0 = s.cfg.tags.allClear → pkt = .allClear)
      ∧ (num f 0 = 0 → f.getD 1 0 = s.cfg.tags.prematureEnd → pkt = .prematureEnd)
      ∧ (num f 0 = 0 → f.getD 1 0 = s.cfg.tags.endTag → ∃ n : U16, pkt = .endPacket n
          ∧ n.toNat = num f 2 + 256 * num f 3)
      ∧ (num f 0 = 0 → f.getD 1 0 ≠ s.cfg.tags.start → f.getD 1 0 ≠ s.cfg.tags.retransmitRequest →
          f.getD 1 0 ≠ s.cfg.tags.allClear → f.getD 1 0 ≠ s.cfg.tags.prematureEnd →
          f.getD 1 0 ≠ s.cfg.tags.endTag → pkt = .junk (f.getD 1 0)))

/-- The frame rows complete, and each answers what `DECODE` answers for the frame its layout gives, with no change of
state. That a frame row means `DECODE` of its frame is the model's choice (log 4). -/
def Obligations.FrameRowsAnswerAsDecodeOfTheirFrame : Prop :=
  ∀ (s : State) (i : Instr) (f : List Byte), s.cfg.tags.distinct → i.wf s.cfg.tags = true →
    encode s.cfg.tags i = .frame f →
    exec i s = exec (.decode f) s
    ∧ ∃ pkt, answers i s { pkt := some pkt }
      ∧ (∀ seq p ck, i = .frameData seq p ck → pkt = .data seq p ck (fletcher8 p == ck))
      ∧ (∀ z, i = .frameStart z → pkt = .start z)
      ∧ (∀ run ids, i = .frameRetransmitRequest run ids → pkt = .retransmitRequest run ids)
      ∧ (i = .frameAllClear → pkt = .allClear)
      ∧ (i = .framePrematureEnd → pkt = .prematureEnd)
      ∧ (∀ n, i = .frameEnd n → pkt = .endPacket n)
      ∧ (∀ g, i = .frameJunk g → pkt = .junk g)

/-- 40_frame_codec.md R101: the frame `ENC_DATA` packs, byte by byte, for every id and every payload of at most 29
bytes; `BAD_LEN` for a longer one; no state is written. -/
def Obligations.EncDataPacksTheDataFrame : Prop :=
  ∀ (s : State) (seq : U16) (p : List Byte),
    (p.length ≤ 29 → ∃ q, answers (.encData seq p) s { q := q } ∧ isDataFrame q seq (padded p))
    ∧ (29 < p.length → refusedWith (.encData seq p) s .badLen)

/-- 40_frame_codec.md R102, R104, R105, R106: the frames of `Start`, `AllClear`, `PrematureEnd` and `End`, every byte of
them; no error, no state is written. The tags are those of the parameters (00_scope.md R7). -/
def Obligations.ControlEncodersPackTheirFrame : Prop :=
  ∀ (s : State) (z : U32) (n : U16),
    (∃ a b c d : Byte, answers (.encStart z) s
        { q := 0x00#8 :: s.cfg.tags.start :: a :: b :: c :: d :: List.replicate 26 0x00#8 }
      ∧ z.toNat = a.toNat + 2 ^ 8 * b.toNat + 2 ^ 16 * c.toNat + 2 ^ 24 * d.toNat)
    ∧ answers .encAllclear s { q := 0x00#8 :: s.cfg.tags.allClear :: List.replicate 30 0x00#8 }
    ∧ answers .encPremend s { q := 0x00#8 :: s.cfg.tags.prematureEnd :: List.replicate 30 0x00#8 }
    ∧ (∃ a b : Byte, answers (.encEnd n) s
        { q := 0x00#8 :: s.cfg.tags.endTag :: a :: b :: List.replicate 28 0x00#8 }
      ∧ n.toNat = a.toNat + 256 * b.toNat)

/-- 40_frame_codec.md R103: the request frame, every byte of it, for at most 13 ids; `BAD_LEN` for more; no state is
written. -/
def Obligations.EncRreqPacksTheRequest : Prop :=
  ∀ (s : State) (run : U16) (ids : List U16),
    (ids.length ≤ 13 → ∃ q, answers (.encRreq run ids) s { q := q } ∧ q.length = 32
      ∧ num q 0 = 0 ∧ q.getD 1 0 = s.cfg.tags.retransmitRequest ∧ num q 2 = ids.length
      ∧ num q 3 + 256 * num q 4 = run.toNat
      ∧ (∀ j, j < 13 → num q (5 + 2 * j) + 256 * num q (6 + 2 * j) =
          if j < ids.length then (ids.getD j 0).toNat else 0)
      ∧ num q 31 = 0)
    ∧ (13 < ids.length → refusedWith (.encRreq run ids) s .badLen)

/-- 40_frame_codec.md R108: the round trip of the six encodable variants through `ENC_*` and `DECODE`, the data frame
with the proviso `lo8(seq) ≠ 0` and its payload padded. Each operation completes. -/
def Obligations.EveryVariantRoundTrips : Prop :=
  ∀ (s : State), s.cfg.tags.distinct →
    (∀ (seq : U16) (p : List Byte), seq.toNat % 256 ≠ 0 → p.length ≤ 29 →
      ∃ q, answers (.encData seq p) s { q := q }
        ∧ answers (.decode q) s { pkt := some (.data seq (pad29 p) (fletcher8 (pad29 p)) true) })
    ∧ (∀ z : U32, ∃ q, answers (.encStart z) s { q := q } ∧ answers (.decode q) s { pkt := some (.start z) })
    ∧ (∀ n : U16, ∃ q, answers (.encEnd n) s { q := q } ∧ answers (.decode q) s { pkt := some (.endPacket n) })
    ∧ (∀ (run : U16) (ids : List U16), ids.length ≤ 13 → ∃ q, answers (.encRreq run ids) s { q := q }
        ∧ answers (.decode q) s { pkt := some (.retransmitRequest run ids) })
    ∧ (∃ q, answers .encAllclear s { q := q } ∧ answers (.decode q) s { pkt := some .allClear })
    ∧ (∃ q, answers .encPremend s { q := q } ∧ answers (.decode q) s { pkt := some .prematureEnd })

/-- 70_reset_and_hazards.md R230, 30_encoding.md R75 (b): a data frame whose id has a zero low byte is packed without
complaint and decodes as the control variant or junk of the tag `seq div 256`, never as data. -/
def Obligations.ZeroLowByteIdsDecodeAsControl : Prop :=
  ∀ (s : State) (seq : U16) (p : List Byte), s.cfg.tags.distinct → seq.toNat % 256 = 0 → p.length ≤ 29 →
    ∃ q pkt, answers (.encData seq p) s { q := q } ∧ answers (.decode q) s { pkt := some pkt }
      ∧ (∀ x y c ok, pkt ≠ .data x y c ok)
      ∧ (seq.toNat / 256 = s.cfg.tags.start.toNat → ∃ z : U32, pkt = .start z
          ∧ z.toNat = (padded p 0).toNat + 2 ^ 8 * (padded p 1).toNat + 2 ^ 16 * (padded p 2).toNat
            + 2 ^ 24 * (padded p 3).toNat)
      ∧ (seq.toNat / 256 = s.cfg.tags.retransmitRequest.toNat → (padded p 0).toNat > 13 →
          pkt = .junk s.cfg.tags.retransmitRequest)
      ∧ (seq.toNat / 256 = s.cfg.tags.retransmitRequest.toNat → (padded p 0).toNat ≤ 13 →
          ∃ run : U16, ∃ ids : List U16, pkt = .retransmitRequest run ids
          ∧ run.toNat = (padded p 1).toNat + 256 * (padded p 2).toNat ∧ ids.length = (padded p 0).toNat
          ∧ ∀ j, j < ids.length →
              (ids.getD j 0).toNat = (padded p (3 + 2 * j)).toNat + 256 * (padded p (4 + 2 * j)).toNat)
      ∧ (seq.toNat / 256 = s.cfg.tags.allClear.toNat → pkt = .allClear)
      ∧ (seq.toNat / 256 = s.cfg.tags.prematureEnd.toNat → pkt = .prematureEnd)
      ∧ (seq.toNat / 256 = s.cfg.tags.endTag.toNat → ∃ n : U16, pkt = .endPacket n
          ∧ n.toNat = (padded p 0).toNat + 256 * (padded p 1).toNat)
      ∧ (seq.toNat / 256 ∉ [s.cfg.tags.start.toNat, s.cfg.tags.retransmitRequest.toNat, s.cfg.tags.allClear.toNat,
            s.cfg.tags.prematureEnd.toNat, s.cfg.tags.endTag.toNat] →
          pkt = .junk (BitVec.ofNat 8 (seq.toNat / 256)))

/-! ## Checksum -/

/-- 41_checksum.md R130: both sums start at 0, and each byte is added to `sum1` and then `sum1` to `sum2`, modulo 16; the low
nibble of the checksum is `sum1`, the high nibble `sum2`. The start value is the spec's decision (92_eei_decisions.md D9). -/
def Obligations.FletcherAddsByteByByte : Prop :=
  fletcher8 [] = 0x00#8
  ∧ ∀ (bytes : List Byte) (b : Byte),
      (fletcher8 (bytes ++ [b])).toNat % 16 = ((fletcher8 bytes).toNat % 16 + b.toNat) % 16
      ∧ (fletcher8 (bytes ++ [b])).toNat / 16
          = ((fletcher8 bytes).toNat / 16 + (fletcher8 (bytes ++ [b])).toNat % 16) % 16

/-- 41_checksum.md R131: the closed form of `fletcher8`, for a sequence of any length. -/
def Obligations.FletcherClosedForm : Prop :=
  ∀ bytes : List Byte,
    (fletcher8 bytes).toNat =
      (((List.range bytes.length).map fun i => num bytes i).sum % 16)
      + 16 * (((List.range bytes.length).map fun i => (bytes.length - i) * num bytes i).sum % 16)

/-- 41_checksum.md R136 item 3, 70_reset_and_hazards.md R231: the checksum sees the low nibbles only, so damage in the
high nibbles of a payload passes `VERIFY`. -/
def Obligations.FletcherIgnoresHighNibbles : Prop :=
  (∀ x y : List Byte, x.length = y.length → (∀ i, num x i % 16 = num y i % 16) → fletcher8 x = fletcher8 y)
  ∧ ∀ (s : State) (f g : List Byte), f.length = 32 → g.length = 32 → f.getD 31 0 = g.getD 31 0 →
      (∀ i, 2 ≤ i → i < 31 → num f i % 16 = num g i % 16) → exec (.verify f) s = exec (.verify g) s

/-- 41_checksum.md R136 item 5: every byte is the checksum of some two bytes. -/
def Obligations.EveryByteIsAChecksum : Prop :=
  ∀ v : Byte, ∃ a b : Byte, a.toNat < 16 ∧ b.toNat < 16 ∧ fletcher8 [a, b] = v

/-- 41_checksum.md R132: `FLETCHER8` of at most 32 bytes answers the checksum, zero-extended, and writes no state; a
longer operand is `BAD_LEN`. -/
def Obligations.Fletcher8AnswersTheChecksum : Prop :=
  ∀ (s : State) (bytes : List Byte),
    (bytes.length ≤ 32 → ∃ r : U32, answers (.fletcher8 bytes) s { r := r } ∧ r.toNat = (fletcher8 bytes).toNat)
    ∧ (32 < bytes.length → refusedWith (.fletcher8 bytes) s .badLen)

/-- 41_checksum.md R134: `VERIFY` answers 1 exactly when the payload field's checksum is `F[31]`, else 0; it agrees with
the `ck_ok` of `DECODE` on a data frame; a length other than 32 is `BAD_LEN`; no state is written. -/
def Obligations.VerifyComparesTheChecksumByte : Prop :=
  ∀ (s : State) (f : List Byte),
    (f.length = 32 → ∃ r : U32, answers (.verify f) s { r := r } ∧ (r = 0 ∨ r = 1)
      ∧ (r = 1 ↔ fletcher8 ((f.drop 2).take 29) = f.getD 31 0)
      ∧ (num f 0 ≠ 0 → ∃ seq pay ck, answers (.decode f) s { pkt := some (.data seq pay ck (decide (r = 1))) }))
    ∧ (f.length ≠ 32 → refusedWith (.verify f) s .badLen)

/-! ## The packet store -/

/-- 42_packet_store.md R142: `ALLOC` with its two refusals in their order. -/
def Obligations.AllocOpensTheStore : Prop :=
  ∀ (s : State) (z : U32), s.cfg.valid →
    (s.allocated = true → refusedWith (.alloc z) s .busy)
    ∧ (s.allocated = false → s.cfg.storeDepth < (z.toNat + 28) / 29 + 1 → refusedWith (.alloc z) s .tooLarge)
    ∧ (s.allocated = false → (z.toNat + 28) / 29 + 1 ≤ s.cfg.storeDepth →
      ∃ t, exec (.alloc z) s = .next t ∧ t.allocated = true ∧ t.fileSize = z
        ∧ t.expectedCount.toNat = (z.toNat + 28) / 29 ∧ t.storedCount = 0 ∧ (∀ slot, t.bit slot = false)
        ∧ t.events = s.events ∧ t.mem = s.mem ∧ t.cfg = s.cfg ∧ t.input = s.input
        ∧ t.response = { r := BitVec.ofNat 32 ((z.toNat + 28) / 29) })

/-- 42_packet_store.md R143: `FREE` completes in every state, empties every register, flag and bit, leaves the payload
RAM, and of an empty block changes nothing but the response. -/
def Obligations.FreeEmptiesTheBlock : Prop :=
  (∀ s : State, ∃ t, exec .free s = .next t ∧ t.allocated = false ∧ t.fileSize = 0 ∧ t.expectedCount = 0
    ∧ t.storedCount = 0 ∧ t.events = 0 ∧ (∀ slot, t.bit slot = false)
    ∧ t.mem = s.mem ∧ t.cfg = s.cfg ∧ t.input = s.input ∧ t.response = {})
  ∧ (∀ s : State, s.Inv → s.allocated = false → s.events = 0 → answers .free s {})

/-- 42_packet_store.md R144: `PUT` stores the padded payload, sets the bit, counts a new slot, changes nothing else;
`BAD_LEN`, `NOT_ALLOCATED`, `RANGE` in their order. -/
def Obligations.PutStoresThePaddedPayload : Prop :=
  ∀ (s : State) (seq : U16) (p : List Byte), s.Inv →
    (29 < p.length → refusedWith (.put seq p) s .badLen)
    ∧ (p.length ≤ 29 → s.allocated = false → refusedWith (.put seq p) s .notAllocated)
    ∧ (p.length ≤ 29 → s.allocated = true → seq.toNat = 0 ∨ s.expectedCount.toNat < seq.toNat →
        refusedWith (.put seq p) s .range)
    ∧ (p.length ≤ 29 → s.allocated = true → 1 ≤ seq.toNat → seq.toNat ≤ s.expectedCount.toNat →
      ∃ t, exec (.put seq p) s = .next t ∧ storedIn s t seq.toNat (padded p) ∧ t.events = s.events
        ∧ t.response = {})

/-- 42_packet_store.md R145: `GET` of a stored slot answers its 29 bytes and writes no state; `NOT_ALLOCATED`, `RANGE`,
`UNWRITTEN` in their order. -/
def Obligations.GetAnswersTheStoredSlot : Prop :=
  ∀ (s : State) (seq : U16), s.Inv →
    (s.allocated = false → refusedWith (.get seq) s .notAllocated)
    ∧ (s.allocated = true → seq.toNat = 0 ∨ s.expectedCount.toNat < seq.toNat → refusedWith (.get seq) s .range)
    ∧ (s.allocated = true → 1 ≤ seq.toNat → seq.toNat ≤ s.expectedCount.toNat → s.bit seq.toNat = false →
        refusedWith (.get seq) s .unwritten)
    ∧ (s.allocated = true → 1 ≤ seq.toNat → seq.toNat ≤ s.expectedCount.toNat → s.bit seq.toNat = true →
      ∃ q, answers (.get seq) s { q := q } ∧ q.length = 29
        ∧ ∀ k, k < 29 → Memory.read s.mem (29 * seq.toNat + k) = some (q.getD k 0))

/-- 42_packet_store.md R146: `TEST` answers the bit and writes no state; `NOT_ALLOCATED`, `RANGE` in their order, `RANGE`
for id 0 too. -/
def Obligations.TestAnswersTheBit : Prop :=
  ∀ (s : State) (seq : U16), s.Inv →
    (s.allocated = false → refusedWith (.test seq) s .notAllocated)
    ∧ (s.allocated = true → seq.toNat = 0 ∨ s.expectedCount.toNat < seq.toNat → refusedWith (.test seq) s .range)
    ∧ (s.allocated = true → 1 ≤ seq.toNat → seq.toNat ≤ s.expectedCount.toNat →
      ∃ r : U32, answers (.test seq) s { r := r }
        ∧ (s.bit seq.toNat = true → r = 1) ∧ (s.bit seq.toNat = false → r = 0))

/-- 42_packet_store.md R147: `MISSING` answers exactly the unset ids of `1..count`, increasing, two bytes each, and
their number, and writes no state; `NOT_ALLOCATED`, `RANGE` in their order. -/
def Obligations.MissingListsTheUnsetIds : Prop :=
  ∀ (s : State) (count : U16), s.Inv →
    (s.allocated = false → refusedWith (.missing count) s .notAllocated)
    ∧ (s.allocated = true → s.expectedCount.toNat < count.toNat → refusedWith (.missing count) s .range)
    ∧ (s.allocated = true → count.toNat ≤ s.expectedCount.toNat →
      ∃ (ids : List Nat) (r : U32) (q : List Byte), answers (.missing count) s { r := r, q := q }
        ∧ ids.Pairwise (fun x y => x < y)
        ∧ (∀ x, x ∈ ids ↔ 1 ≤ x ∧ x ≤ count.toNat ∧ s.bit x = false)
        ∧ r.toNat = ids.length ∧ q.length = 2 * ids.length
        ∧ (∀ j, j < ids.length → num q (2 * j) + 256 * num q (2 * j + 1) = ids.getD j 0))

/-- 42_packet_store.md R148: `ASSEMBLE` over set slots answers slots 1 to `h`, the last cut to `last_len` when `h = N`,
and the number of bytes, and writes no state; `NOT_ALLOCATED`, `RANGE`, `INCOMPLETE` in their order. -/
def Obligations.AssembleConcatenatesTheSlots : Prop :=
  ∀ (s : State) (h : U16), s.Inv →
    (s.allocated = false → refusedWith (.assemble h) s .notAllocated)
    ∧ (s.allocated = true → s.expectedCount.toNat < h.toNat → refusedWith (.assemble h) s .range)
    ∧ (s.allocated = true → h.toNat ≤ s.expectedCount.toNat →
        (∃ x, 1 ≤ x ∧ x ≤ h.toNat ∧ s.bit x = false) → refusedWith (.assemble h) s .incomplete)
    ∧ (s.allocated = true → h.toNat ≤ s.expectedCount.toNat →
        (∀ x, 1 ≤ x → x ≤ h.toNat → s.bit x = true) →
      ∃ (q : List Byte) (tail : Nat), answers (.assemble h) s { r := BitVec.ofNat 32 q.length, q := q }
        ∧ (h.toNat = 0 → q = [])
        ∧ (h.toNat = s.expectedCount.toNat → tail = lastLen s.fileSize s.expectedCount)
        ∧ (h.toNat < s.expectedCount.toNat → tail = 29)
        ∧ (1 ≤ h.toNat → q.length = 29 * (h.toNat - 1) + tail)
        ∧ ∀ x k, 1 ≤ x → x ≤ h.toNat → k < 29 → 29 * (x - 1) + k < q.length →
            Memory.read s.mem (29 * x + k) = some (q.getD (29 * (x - 1) + k) 0))

/-- 42_packet_store.md R149: `STAT` completes in every state and answers the 11 bytes of the registers; the length of the
last slot, from 0 to 29 in a sound state, is one of them. That its byte is the length modulo 256 shows only in states that
are not sound and is the model's (log 17). -/
def Obligations.StatAnswersTheRegisters : Prop :=
  ∀ s : State, ∃ q, answers .stat s { q := q } ∧ q.length = 11
    ∧ num q 0 = (if s.allocated = true then 1 else 0)
    ∧ num q 1 + 2 ^ 8 * num q 2 + 2 ^ 16 * num q 3 + 2 ^ 24 * num q 4 = s.fileSize.toNat
    ∧ num q 5 + 256 * num q 6 = s.expectedCount.toNat
    ∧ num q 7 + 256 * num q 8 = s.storedCount.toNat
    ∧ num q 9 = lastLen s.fileSize s.expectedCount % 256
    ∧ (s.Inv → num q 9 = lastLen s.fileSize s.expectedCount ∧ num q 9 ≤ 29)
    ∧ num q 10 = s.events.toNat

/-- 10_state.md R29: `last_len` is 0 for `N = 0`; in a sound state with `N ≥ 1` it is `FILE_SIZE - 29*(N-1)`, from 1 to 29,
the file size modulo 29 but for 29 in place of 0, and the slots together hold the file. -/
def Obligations.LastSlotLength : Prop :=
  (∀ z : U32, lastLen z 0 = 0)
  ∧ ∀ s : State, s.Inv → s.allocated = true → 1 ≤ s.expectedCount.toNat →
    lastLen s.fileSize s.expectedCount = s.fileSize.toNat - 29 * (s.expectedCount.toNat - 1)
    ∧ 1 ≤ lastLen s.fileSize s.expectedCount ∧ lastLen s.fileSize s.expectedCount ≤ 29
    ∧ lastLen s.fileSize s.expectedCount =
        (if s.fileSize.toNat % 29 = 0 then 29 else s.fileSize.toNat % 29)
    ∧ 29 * (s.expectedCount.toNat - 1) + lastLen s.fileSize s.expectedCount = s.fileSize.toNat

/-- 42_packet_store.md R150 items 1, 2 and 3: `MISSING N` is empty exactly when every slot is stored, when the counter is
`N`, and when `ASSEMBLE N` is not refused with `INCOMPLETE`; missing and set ids of `1..c` make `c`. -/
def Obligations.MissingIsEmptyWhenComplete : Prop :=
  ∀ s : State, s.Inv → s.allocated = true →
    ∃ t u, exec (.missing s.expectedCount) s = .next t ∧ exec (.assemble s.expectedCount) s = .next u
      ∧ (t.response.q = [] ↔ ∀ x, 1 ≤ x → x ≤ s.expectedCount.toNat → s.bit x = true)
      ∧ (t.response.q = [] ↔ s.storedCount = s.expectedCount)
      ∧ (t.response.q = [] ↔ u.response.status ≠ .incomplete)
      ∧ ∀ c : U16, c.toNat ≤ s.expectedCount.toNat → ∃ v, exec (.missing c) s = .next v
          ∧ v.response.r.toNat + s.setBits c.toNat = c.toNat

/-- 42_packet_store.md R150 item 6: `GET` after `PUT` answers the padded payload. -/
def Obligations.PutThenGetAnswersThePayload : Prop :=
  ∀ (s : State) (seq : U16) (p : List Byte), s.Inv → s.allocated = true → 1 ≤ seq.toNat →
    seq.toNat ≤ s.expectedCount.toNat → p.length ≤ 29 →
    ∃ t, exec (.put seq p) s = .next t ∧ answers (.get seq) t { q := pad29 p }

/-- 42_packet_store.md R150 items 4 and 5: when every slot holds its part of a file whose length is `FILE_SIZE`,
`ASSEMBLE N` answers the file. -/
def Obligations.AssembleReturnsTheFile : Prop :=
  ∀ (s : State) (file : List Byte), s.Inv → s.allocated = true → s.fileSize.toNat = file.length →
    (∀ x, 1 ≤ x → x ≤ s.expectedCount.toNat →
      s.bit x = true ∧ s.readSlot x = some (pad29 (chunk file x))) →
    answers (.assemble s.expectedCount) s { r := BitVec.ofNat 32 file.length, q := file }

/-- 20_memory.md R57, 40_frame_codec.md R100, 41_checksum.md R132, R134: the reads, and the codec and checksum operations,
change no state, so that whatever is issued next answers as if they had not been issued, the same one with the same
result; and a second `PUT` of the same bytes leaves the state exactly as the first left it. That the seven frame rows,
which the first clause covers too, write no state is the model's (log 4). -/
def Obligations.ReadsHaveNoSideEffect : Prop :=
  (∀ (s t : State) (i : Instr), writesState i = false → exec i s = .next t →
      t = { s with response := t.response } ∧ exec i t = .next t ∧ ∀ j : Instr, exec j t = exec j s)
  ∧ (∀ (s t : State) (seq : U16) (p : List Byte), s.Inv → exec (.put seq p) s = .next t →
      t.response.status = .ok → exec (.put seq p) t = .next t)

/-! ## The data path -/

/-- 43_datapath.md R171: `TX_DATA` stores the padded payload as `PUT` does and answers its data frame; `BAD_LEN`,
`NOT_ALLOCATED`, `RANGE` in their order. -/
def Obligations.TxDataStoresAndAnswersTheFrame : Prop :=
  ∀ (s : State) (seq : U16) (p : List Byte), s.Inv →
    (29 < p.length → refusedWith (.txData seq p) s .badLen)
    ∧ (p.length ≤ 29 → s.allocated = false → refusedWith (.txData seq p) s .notAllocated)
    ∧ (p.length ≤ 29 → s.allocated = true → seq.toNat = 0 ∨ s.expectedCount.toNat < seq.toNat →
        refusedWith (.txData seq p) s .range)
    ∧ (p.length ≤ 29 → s.allocated = true → 1 ≤ seq.toNat → seq.toNat ≤ s.expectedCount.toNat →
      ∃ t q, exec (.txData seq p) s = .next t ∧ storedIn s t seq.toNat (padded p) ∧ t.events = s.events
        ∧ t.response = { q := q } ∧ isDataFrame q seq (padded p))

/-- 43_datapath.md R172: `RETX` of a stored slot answers the data frame of its 29 bytes and writes no state;
`NOT_ALLOCATED`, `RANGE`, `UNWRITTEN` in their order. -/
def Obligations.RetxAnswersTheFrameOfTheSlot : Prop :=
  ∀ (s : State) (seq : U16), s.Inv →
    (s.allocated = false → refusedWith (.retx seq) s .notAllocated)
    ∧ (s.allocated = true → seq.toNat = 0 ∨ s.expectedCount.toNat < seq.toNat → refusedWith (.retx seq) s .range)
    ∧ (s.allocated = true → 1 ≤ seq.toNat → seq.toNat ≤ s.expectedCount.toNat → s.bit seq.toNat = false →
        refusedWith (.retx seq) s .unwritten)
    ∧ (s.allocated = true → 1 ≤ seq.toNat → seq.toNat ≤ s.expectedCount.toNat → s.bit seq.toNat = true →
      ∃ (q : List Byte) (pay : Nat → Byte), answers (.retx seq) s { q := q } ∧ isDataFrame q seq pay
        ∧ ∀ k, k < 29 → Memory.read s.mem (29 * seq.toNat + k) = some (pay k))

/-- 43_datapath.md R170: `TX_DATA` is `PUT` then `ENC_DATA`, `RETX` is `ENC_DATA` of what `GET` answers, each refused as a
whole when its first half is; `RX_FRAME` answers the packet `DECODE` answers. -/
def Obligations.CompositesAreTheirPrimitives : Prop :=
  (∀ (s t : State) (seq : U16) (p : List Byte), exec (.put seq p) s = .next t →
    (t.response.status = .ok → exec (.txData seq p) s = exec (.encData seq p) t)
    ∧ (t.response.status ≠ .ok → exec (.txData seq p) s = .next t))
  ∧ (∀ (s t : State) (seq : U16), exec (.get seq) s = .next t →
    (t.response.status = .ok → exec (.retx seq) s = exec (.encData seq t.response.q) t)
    ∧ (t.response.status ≠ .ok → exec (.retx seq) s = .next t))
  ∧ (∀ (s t u : State) (f : List Byte), exec (.rxFrame f) s = .next t → exec (.decode f) s = .next u →
    t.response.status = .ok → t.response.pkt = u.response.pkt)

/-- 43_datapath.md R173, all of it: `RX_FRAME` by the packet `DECODE` gives for the frame. For a data frame: range, then
checksum under the policy, then duplicate, then store. -/
def Obligations.RxFrameFollowsTheReceiveRule : Prop :=
  ∀ (s : State) (f : List Byte), s.Inv →
    (f.length ≠ 32 → refusedWith (.rxFrame f) s .badLen)
    ∧ (f.length = 32 → ∃ pkt, answers (.decode f) s { pkt := some pkt }
      ∧ (∀ g, pkt = .junk g → exec (.rxFrame f) s =
          .next { s with events := s.events ||| 0b001#3, response := { outcome := some .junk, pkt := some pkt } })
      ∧ ((∀ g, pkt ≠ .junk g) → (∀ x y c ok, pkt ≠ .data x y c ok) →
          answers (.rxFrame f) s { outcome := some .control, pkt := some pkt })
      ∧ (∀ seq pay ck ok, pkt = .data seq pay ck ok →
          (s.allocated = false → refusedWith (.rxFrame f) s .notAllocated)
          ∧ (s.allocated = true → s.expectedCount.toNat < seq.toNat → refusedWith (.rxFrame f) s .range)
          ∧ (s.allocated = true → seq.toNat ≤ s.expectedCount.toNat →
            (ok = false → s.cfg.policy = .drop → exec (.rxFrame f) s =
              .next { s with events := s.events ||| 0b100#3
                             response := { outcome := some .cksumDropped, pkt := some pkt } })
            ∧ ((ok = true ∨ s.cfg.policy = .inform) → s.bit seq.toNat = true → exec (.rxFrame f) s =
              .next { s with events := s.events ||| (if ok = true then 0b010#3 else 0b110#3)
                             response := { outcome := some .duplicate, pkt := some pkt } })
            ∧ ((ok = true ∨ s.cfg.policy = .inform) → s.bit seq.toNat = false →
              ∃ t, exec (.rxFrame f) s = .next t ∧ storedIn s t seq.toNat (fun k => pay.getD k 0)
                ∧ t.events = s.events ||| (if ok = true then 0b000#3 else 0b100#3)
                ∧ t.response = { outcome := some .stored, pkt := some pkt }))))

/-- 43_datapath.md R174 item 6, 10_state.md R25: on the receive path the counter goes up by exactly one per `STORED`
outcome and by nothing else. -/
def Obligations.CounterCountsStoredOutcomes : Prop :=
  ∀ (s t : State) (f : List Byte), s.Inv → exec (.rxFrame f) s = .next t →
    t.storedCount.toNat = s.storedCount.toNat + (if t.response.outcome = some .stored then 1 else 0)

/-- 43_datapath.md R174 item 1: on two sound blocks that are open, a frame `TX_DATA` answers on the one is stored by
`RX_FRAME` on the other, byte for byte as the sender holds it, as `STORED` the first time and `DUPLICATE` after,
whatever the checksum policies. -/
def Obligations.FrameTransferIsFaithful : Prop :=
  ∀ (a b a' : State) (seq : U16) (p : List Byte), a.Inv → b.Inv → a.allocated = true → b.allocated = true →
    b.fileSize = a.fileSize → 1 ≤ seq.toNat → seq.toNat ≤ a.expectedCount.toNat → seq.toNat % 256 ≠ 0 →
    p.length ≤ 29 → b.bit seq.toNat = false → exec (.txData seq p) a = .next a' →
    ∃ b' b'', exec (.rxFrame a'.response.q) b = .next b' ∧ b'.response.outcome = some .stored
      ∧ b'.readSlot seq.toNat = a'.readSlot seq.toNat ∧ (b'.readSlot seq.toNat).isSome = true
      ∧ exec (.rxFrame a'.response.q) b' = .next b'' ∧ b''.response.outcome = some .duplicate
      ∧ b''.mem = b'.mem

/-- 43_datapath.md R174 item 4, R172 (a): `RETX` after `TX_DATA` answers the frame `TX_DATA` answered. -/
def Obligations.RetxRepeatsTxData : Prop :=
  ∀ (s t : State) (seq : U16) (p : List Byte), s.Inv → exec (.txData seq p) s = .next t →
    t.response.status = .ok → answers (.retx seq) t { q := t.response.q }

/-- 43_datapath.md R174 item 3, R173 (f): no received frame ever sets the bit of an id with a zero low byte, and while
that bit is 0 and the id is in range, `ASSEMBLE N` is refused with `INCOMPLETE`. -/
def Obligations.AliasedIdsAreNeverReceived : Prop :=
  ∀ (s : State) (x : Nat), s.Inv → x % 256 = 0 → s.bit x = false →
    (∀ (f : List Byte) (t : State), exec (.rxFrame f) s = .next t → t.bit x = false)
    ∧ (s.allocated = true → 1 ≤ x → x ≤ s.expectedCount.toNat →
        refusedWith (.assemble s.expectedCount) s .incomplete)

/-- 43_datapath.md R174 item 2: an open, empty receiver of a file of at most 255 packets that gets every frame of
the file at least once, in any order, with any duplicates and any junk frames mixed in, ends with every slot stored,
nothing missing, and `ASSEMBLE N` answering the file, whatever the checksum policy. -/
def Obligations.EveryFrameOnceDeliversTheFile : Prop :=
  ∀ (s : State) (file : List Byte) (frames : List (List Byte)), s.Inv → s.allocated = true →
    s.fileSize.toNat = file.length → s.expectedCount.toNat ≤ 255 → s.storedCount = 0 →
    (∀ f ∈ frames, (∃ x, 1 ≤ x ∧ x ≤ s.expectedCount.toNat ∧ f = fileFrame file x)
      ∨ (f.length = 32 ∧ ∃ g, decodePacket s.cfg.tags f = .junk g)) →
    (∀ x, 1 ≤ x → x ≤ s.expectedCount.toNat → fileFrame file x ∈ frames) →
    ∃ t, runAll (frames.map .rxFrame) s = .next t ∧ t.storedCount = s.expectedCount
      ∧ answers (.missing s.expectedCount) t {}
      ∧ answers (.assemble s.expectedCount) t { r := BitVec.ofNat 32 file.length, q := file }

/-! ## Rules of the whole machine -/

/-- The state after reset is sound. -/
def Obligations.ResetStateIsSound : Prop :=
  State.reset.Inv ∧ ∀ (s : State) (rest : List HostEvent), s.Inv → s.input = .reset :: rest →
    ∃ t, step s = .next t ∧ t.Inv

/-- Tier 3, 10_state.md R30: every step from a sound state, reachable or not, leaves a sound state: items 1 to 4 of R30,
the admitted parameters, the forms of the store's data, and 29 bytes in every slot whose bit is set. -/
def Obligations.StepKeepsTheBlockSound : Prop :=
  ∀ s t : State, s.Inv → step s = .next t → t.Inv

/-- Tier 3, 93_implementation_defined.md ("no input stops it, and every operation returns"), 60_exceptions.md R190: from a
sound state the block takes any number of steps, whatever the host does, and is sound after each. -/
def Obligations.NoInputStopsTheBlock : Prop :=
  ∀ (s : State), s.Inv → ∀ k : Nat, ∃ t, Host.Core.run Sys2Proof.core k s = .next t ∧ State.Inv t

/-- 60_exceptions.md R190: an operation that ends with an error status changes no register, bit, slot byte or flag, every
other field of the response, as the port shows it, is 0, and the next operation goes as if the refused one had not been
issued. -/
def Obligations.RefusedOperationsChangeNothing : Prop :=
  ∀ (i : Instr) (s t : State), exec i s = .next t → t.response.status ≠ .ok →
    t = { s with response := t.response }
    ∧ responsePort t.response = { status := statusCode t.response.status, outcome := 0, r := 0, pkt := {}, q := [] }
    ∧ ∀ j : Instr, exec j t = exec j s

/-- 60_exceptions.md R203 items 2 to 7: in a sound state every instruction completes with a next state whose status is the
first that applies in the fixed order. That a frame row answers `OK` is the model's (log 4). -/
def Obligations.StatusIsTheFirstThatApplies : Prop :=
  ∀ (i : Instr) (s : State), s.Inv → ∃ t, exec i s = .next t ∧ t.response.status = firstStatus i s

/-- 10_state.md R26: the flags are sticky and only `RX_FRAME` sets them; `FREE` and the reset input alone clear them. -/
def Obligations.EventFlagsAreSticky : Prop :=
  (∀ (i : Instr) (s t : State), exec i s = .next t → i ≠ .free →
    (∀ j, s.events.getLsbD j = true → t.events.getLsbD j = true)
    ∧ (isRxFrame i = false → t.events = s.events))
  ∧ ∀ (s t : State), step s = .next t → ∀ j, s.events.getLsbD j = true → t.events.getLsbD j = false →
      (∃ rest, s.input = .reset :: rest) ∨ (∃ w rest, s.input = .resetDuring w :: rest)
      ∨ (∃ w rest, s.input = .issue w :: rest ∧ decode s.cfg.tags w = .instr .free)

/-- 10_state.md R26: the flags change no behaviour: every operation but `STAT` ends the same whatever the flags are, but
for the flags themselves. -/
def Obligations.FlagsChangeNoBehaviour : Prop :=
  ∀ (i : Instr) (s t : State) (e : BitVec 3), i ≠ .stat → exec i s = .next t →
    ∃ e', exec i { s with events := e } = .next { t with events := e' }

/-- 10_state.md R31: the parameters are fixed; no step changes them. That the state carries them is the model's (log 3). -/
def Obligations.ParametersNeverChange : Prop :=
  ∀ s t : State, step s = .next t → t.cfg = s.cfg

/-- 41_checksum.md R135: `CHECKSUM_POLICY` is read by `RX_FRAME` only, and there only for a data frame whose checksum does
not match: any other operation, and `RX_FRAME` of an operand of a wrong length, of a control or junk frame and of a frame
whose last byte is the checksum of its payload field, ends the same under both policies. -/
def Obligations.PolicyIsReadByRxFrameOnly : Prop :=
  ∀ (i : Instr) (s t : State) (pol : ChecksumPolicy),
    (isRxFrame i = false ∨ ∃ f, i = .rxFrame f ∧
      (f.length ≠ 32 ∨ (∀ seq pay ck ok, decodePacket s.cfg.tags f ≠ .data seq pay ck ok)
        ∨ ckMatches (framePayload f) (frameLast f) = true)) →
    exec i s = .next t →
    exec i { s with cfg := { s.cfg with policy := pol } } = .next { t with cfg := { t.cfg with policy := pol } }

/-- Tier 3, 20_memory.md R59, 10_state.md R28: bytes left in slots whose bit is 0 are not observable. Two sound states that
differ only in such bytes answer every instruction alike and differ only in such bytes afterwards. -/
def Obligations.LeftoverBytesAreNotObservable : Prop :=
  ∀ (i : Instr) (s t s' : State), s.Inv → t.Inv → sameStored s t → exec i s = .next s' →
    ∃ t', exec i t = .next t' ∧ sameStored s' t'

/-- The payload RAM and the bitmap keep their canonical form, strictly rising lists, through every step, in every state.
The lists are the model's representation of the RAM (log 7) and of the bitmap (log 11); no rule of the spec gives them. -/
def Obligations.MemoryKeepsItsForm : Prop :=
  ∀ s t : State, Memory.wf s.mem → Bitmap.wf s.bits → step s = .next t → Memory.wf t.mem ∧ Bitmap.wf t.bits

/-- 20_memory.md R58, 10_state.md R28, 43_datapath.md R174 item 5: no step writes slot 0 or a slot above `N`, in RAM or
bitmap. A step that runs `PUT` or `TX_DATA`, or `RX_FRAME` of a data frame, writes no byte and no bit outside the slot of
the id it names (`writtenSlot`); every other step leaves every byte of the RAM and sets no bit. -/
def Obligations.OnlySlotsOfTheSessionAreWritten : Prop :=
  ∀ s t : State, step s = .next t →
    (∀ a, a < 29 ∨ 29 * (s.expectedCount.toNat + 1) ≤ a → Memory.read t.mem a = Memory.read s.mem a)
    ∧ (∀ x, x = 0 ∨ s.expectedCount.toNat < x → t.bit x = true → s.bit x = true)
    ∧ (∀ w rest i slot, s.input = .issue w :: rest → decode s.cfg.tags w = .instr i → writtenSlot s.cfg.tags i = some slot →
        (∀ a, a < slotAddr slot ∨ slotAddr slot + 29 ≤ a → Memory.read t.mem a = Memory.read s.mem a)
        ∧ ∀ x, x ≠ slot → t.bit x = s.bit x)
    ∧ ((∀ w rest i, s.input = .issue w :: rest → decode s.cfg.tags w = .instr i → writtenSlot s.cfg.tags i = none) →
        (∀ a, Memory.read t.mem a = Memory.read s.mem a) ∧ ∀ x, t.bit x = true → s.bit x = true)

/-- 40_frame_codec.md R100, 41_checksum.md R132, R134: the codec and checksum operations are pure: their response depends on
their operands and the tags alone, and they write nothing else. That the seven frame rows complete so as well is the
model's (log 4). -/
def Obligations.PureOperationsIgnoreTheState : Prop :=
  ∀ (i : Instr) (s u : State), namedSlot i = none → namedCount i = none → writesState i = false → i ≠ .stat →
    s.cfg.tags = u.cfg.tags →
    ∃ r, answers i s r ∧ answers i u r

/-- 10_state.md R22 to R25: only `ALLOC` and `FREE` write `ALLOCATED`, `FILE_SIZE` and `EXPECTED_COUNT`; the counter moves
otherwise only up, by one, with a bit that goes from 0 to 1. -/
def Obligations.SessionRegistersHaveTheirWriters : Prop :=
  ∀ (i : Instr) (s t : State), exec i s = .next t → i ≠ .free → (∀ z, i ≠ .alloc z) →
    t.allocated = s.allocated ∧ t.fileSize = s.fileSize ∧ t.expectedCount = s.expectedCount
    ∧ (t.storedCount = s.storedCount ∧ (∀ x, t.bit x = s.bit x)
      ∨ t.storedCount = s.storedCount + 1 ∧ ∃ x, s.bit x = false ∧ t.bit x = true ∧ ∀ y, y ≠ x → t.bit y = s.bit y)
end

