-- ==== Sys2Proof/Laws/Bitmap.lean ====
section
/-! SUPPORT. The laws of the bitmap: what setting a bit does, the form it keeps, and counting set bits. -/

namespace Sys2Proof.Machine

theorem bitmap_mem_set (b : Bitmap) (slot x : Nat) : x ∈ Bitmap.set b slot ↔ x = slot ∨ x ∈ b := by
  induction b with
  | nil => simp [Bitmap.set]
  | cons y b ih =>
    simp only [Bitmap.set]
    split
    · simp
    · split
      · rename_i h
        subst h
        simp
      · simp only [List.mem_cons, ih]
        tauto

/-- `BIT[x]` after `BIT[s] <- 1`. -/
theorem bitmap_test_set (b : Bitmap) (slot x : Nat) :
    Bitmap.test (Bitmap.set b slot) x = (x == slot || Bitmap.test b x) := by
  rw [Bool.eq_iff_iff]
  simp [Bitmap.test, bitmap_mem_set]

/-- Setting a bit keeps the form. -/
theorem bitmap_wf_set (b : Bitmap) (slot : Nat) (h : Bitmap.wf b) : Bitmap.wf (Bitmap.set b slot) := by
  induction b with
  | nil => simp [Bitmap.set, Bitmap.wf]
  | cons y b ih =>
    have ⟨hy, hb⟩ := List.pairwise_cons.1 h
    simp only [Bitmap.set]
    split
    · rename_i hlt
      refine List.pairwise_cons.2 ⟨fun x hx => ?_, h⟩
      rcases List.mem_cons.1 hx with rfl | hx
      · exact hlt
      · exact Nat.lt_trans hlt (hy x hx)
    · split
      · exact h
      · refine List.pairwise_cons.2 ⟨fun x hx => ?_, ih hb⟩
        rcases (bitmap_mem_set b slot x).1 hx with rfl | hx
        · omega
        · exact hy x hx

/-- Setting a bit that is set changes nothing. -/
theorem bitmap_set_of_test (b : Bitmap) (slot : Nat) (hw : Bitmap.wf b) (h : Bitmap.test b slot = true) :
    Bitmap.set b slot = b := by
  induction b with
  | nil => simp [Bitmap.test] at h
  | cons y b ih =>
    have ⟨hy, hb⟩ := List.pairwise_cons.1 hw
    simp only [Bitmap.test, List.contains_cons, Bool.or_eq_true, beq_iff_eq] at h
    simp only [Bitmap.set]
    split
    · rename_i hlt
      rcases h with h | h
      · omega
      · have := hy slot (by simpa using h)
        omega
    · split
      · rfl
      · rename_i hne
        rcases h with h | h
        · exact absurd h hne
        · rw [ih hb h]

/-! ## Slots `1..c` -/

theorem mem_slotIds (c x : Nat) : x ∈ slotIds c ↔ 1 ≤ x ∧ x ≤ c := by
  simp only [slotIds, List.mem_map, List.mem_range]
  constructor
  · rintro ⟨y, hy, rfl⟩
    omega
  · rintro ⟨h1, h2⟩
    exact ⟨x - 1, by omega, by omega⟩

@[simp] theorem slotIds_zero : slotIds 0 = [] := rfl

theorem slotIds_succ (c : Nat) : slotIds (c + 1) = slotIds c ++ [c + 1] := by
  simp [slotIds, List.range_succ]

@[simp] theorem slotIds_length (c : Nat) : (slotIds c).length = c := by simp [slotIds]

theorem slotIds_sorted (c : Nat) : (slotIds c).Pairwise fun x y => x < y := by
  induction c with
  | zero => simp
  | succ c ih =>
    rw [slotIds_succ, List.pairwise_append]
    refine ⟨ih, by simp, fun x hx y hy => ?_⟩
    have := (mem_slotIds c x).1 hx
    simp only [List.mem_singleton] at hy
    omega

/-- Counting the `x` of `1..c` that satisfy `p` or are a given `x` of `1..c` that does not. -/
theorem slotIds_count_insert (p : Nat → Bool) (slot c : Nat) (h1 : 1 ≤ slot) (h2 : slot ≤ c) (hp : p slot = false) :
    ((slotIds c).filter fun x => x == slot || p x).length = ((slotIds c).filter p).length + 1 := by
  induction c with
  | zero => omega
  | succ c ih =>
    rw [slotIds_succ, List.filter_append, List.filter_append, List.length_append, List.length_append]
    by_cases hc : slot = c + 1
    · subst hc
      have : (slotIds c).filter (fun x => x == c + 1 || p x) = (slotIds c).filter p := by
        refine List.filter_congr fun x hx => ?_
        have := (mem_slotIds c x).1 hx
        have : (x == c + 1) = false := by
          simp
          omega
        simp [this]
      simp [this, hp]
    · have h := ih (by omega)
      have hcs : (c + 1 == slot) = false := by
        simp
        omega
      have : ([c + 1].filter fun x => x == slot || p x) = [c + 1].filter p := by
        simp [List.filter, hcs]
      rw [h, this]
      omega

/-- Missing and set ids of `1..c` make `c` (42_packet_store.md R150 item 3). -/
theorem slotIds_missing_add_set (p : Nat → Bool) (c : Nat) :
    ((slotIds c).filter fun x => !p x).length + ((slotIds c).filter p).length = c := by
  induction c with
  | zero => simp
  | succ c ih =>
    rw [slotIds_succ, List.filter_append, List.filter_append, List.length_append, List.length_append]
    cases h : p (c + 1) <;> simp [h] <;> omega

theorem setBits_le (s : State) (c : Nat) : s.setBits c ≤ c := by
  have := slotIds_missing_add_set s.bit c
  unfold State.setBits
  omega

end Sys2Proof.Machine
end

