-- ==== Sys2Proof/Laws/Codec.lean ====
section
/-! SUPPORT. The laws of bytes, numbers and frames: the little-endian helpers undo each other, and each layout is read back by the
frame decoder. -/

namespace Sys2Proof.Machine

/-! ## Numbers -/

theorem lo8_toNat (v : U16) : (lo8 v).toNat = v.toNat % 256 := by
  simp [lo8]

theorem hi8_toNat (v : U16) : (hi8 v).toNat = v.toNat / 256 := by
  have := v.isLt
  simp only [hi8, BitVec.toNat_ofNat]
  omega

theorem le16_toNat (a b : Byte) : (le16 a b).toNat = a.toNat + 256 * b.toNat := by
  have := a.isLt
  have := b.isLt
  simp only [le16, BitVec.toNat_ofNat]
  omega

theorem le32_toNat (a b c d : Byte) :
    (le32 a b c d).toNat = a.toNat + 2 ^ 8 * b.toNat + 2 ^ 16 * c.toNat + 2 ^ 24 * d.toNat := by
  have := a.isLt
  have := b.isLt
  have := c.isLt
  have := d.isLt
  simp only [le32, BitVec.toNat_ofNat]
  omega

@[simp] theorem le16_lo8_hi8 (v : U16) : le16 (lo8 v) (hi8 v) = v := by
  apply BitVec.eq_of_toNat_eq
  rw [le16_toNat, lo8_toNat, hi8_toNat]
  omega

/-- The four bytes of a number are read back. -/
theorem le32_bytesLe32 (v : U32) :
    le32 (BitVec.ofNat 8 v.toNat) (BitVec.ofNat 8 (v.toNat / 2 ^ 8)) (BitVec.ofNat 8 (v.toNat / 2 ^ 16))
      (BitVec.ofNat 8 (v.toNat / 2 ^ 24)) = v := by
  apply BitVec.eq_of_toNat_eq
  have := v.isLt
  rw [le32_toNat]
  simp only [BitVec.toNat_ofNat]
  omega

@[simp] theorem bytesLe16_length (v : U16) : (bytesLe16 v).length = 2 := rfl

@[simp] theorem bytesLe32_length (v : U32) : (bytesLe32 v).length = 4 := rfl

@[simp] theorem zeros_length (n : Nat) : (zeros n).length = n := by simp [zeros]

/-- A 16-bit operand survives the 32-bit field. -/
@[simp] theorem scalar16_toNat (v : U16) : (scalar16 v).toNat = v.toNat := by
  have := v.isLt
  simp only [scalar16, BitVec.toNat_ofNat]
  omega

theorem ids_bytes_length (ids : List U16) : (ids.flatMap bytesLe16).length = 2 * ids.length := by
  induction ids with
  | nil => rfl
  | cons i ids ih =>
    simp only [List.flatMap_cons, List.length_append, bytesLe16_length, List.length_cons, ih]
    omega

/-- The two bytes of the `j`-th id of a list laid out little-endian. -/
theorem ids_bytes_getD (ids : List U16) (j : Nat) (hj : j < ids.length) :
    (ids.flatMap bytesLe16).getD (2 * j) 0 = lo8 (ids.getD j 0)
    ∧ (ids.flatMap bytesLe16).getD (2 * j + 1) 0 = hi8 (ids.getD j 0) := by
  induction ids generalizing j with
  | nil => simp at hj
  | cons i ids ih =>
    cases j with
    | zero => simp [bytesLe16]
    | succ j =>
      have := ih j (by simpa using hj)
      simpa [bytesLe16, Nat.mul_add] using this

/-! ## Frames -/

theorem controlFrame_length (tag : Byte) {fields : List Byte} (h : fields.length ≤ payloadWidth) :
    (controlFrame tag fields).length = frameBytes := by
  simp only [controlFrame, List.length_append, List.length_cons, List.length_nil, zeros_length]
  simp only [payloadWidth, frameBytes] at h ⊢
  omega

@[simp] theorem controlFrame_zero (tag : Byte) (fields : List Byte) : byteAt (controlFrame tag fields) 0 = 0 := by
  simp [controlFrame, byteAt]

@[simp] theorem controlFrame_one (tag : Byte) (fields : List Byte) : byteAt (controlFrame tag fields) 1 = tag := by
  simp [controlFrame, byteAt]

/-- A field byte of a control frame, 0 past the fields. -/
theorem controlFrame_field (tag : Byte) (fields : List Byte) (i : Nat) :
    byteAt (controlFrame tag fields) (2 + i) = fields.getD i 0 := by
  simp only [controlFrame, byteAt, List.append_assoc, List.cons_append, List.nil_append,
    show 2 + i = i + 1 + 1 from by omega, List.getD_cons_succ]
  by_cases h : i < fields.length
  · rw [List.getD_append _ _ _ _ h]
  · have h' : fields.length ≤ i := by omega
    rw [List.getD_append_right _ _ _ _ h', List.getD_eq_default _ _ h']
    by_cases h2 : i - fields.length < payloadWidth - fields.length
    · rw [List.getD_append _ _ _ _ (by simpa using h2)]
      simp [zeros]
    · rw [List.getD_append_right _ _ _ _ (by simpa using h2)]
      cases i - fields.length - (zeros (payloadWidth - fields.length)).length with
      | zero => rfl
      | succ n => simp

theorem dataFrameWith_length (seq : U16) {p : List Byte} (ck : Byte) (h : p.length = payloadWidth) :
    (dataFrameWith seq p ck).length = frameBytes := by
  simp [dataFrameWith, h, payloadWidth, frameBytes]

@[simp] theorem dataFrameWith_zero (seq : U16) (p : List Byte) (ck : Byte) :
    byteAt (dataFrameWith seq p ck) 0 = lo8 seq := by
  simp [dataFrameWith, byteAt, bytesLe16]

@[simp] theorem dataFrameWith_one (seq : U16) (p : List Byte) (ck : Byte) :
    byteAt (dataFrameWith seq p ck) 1 = hi8 seq := by
  simp [dataFrameWith, byteAt, bytesLe16]

theorem dataFrameWith_payload (seq : U16) {p : List Byte} (ck : Byte) (h : p.length = payloadWidth) :
    framePayload (dataFrameWith seq p ck) = p := by
  simp [dataFrameWith, framePayload, bytesLe16, ← h]

/-- A payload byte of a data frame. -/
theorem dataFrameWith_byte (seq : U16) {p : List Byte} (ck : Byte) (h : p.length = payloadWidth) {k : Nat}
    (hk : k < 29) : byteAt (dataFrameWith seq p ck) (2 + k) = p.getD k 0 := by
  simp only [payloadWidth] at h
  simp only [dataFrameWith, byteAt, bytesLe16, List.cons_append, List.nil_append,
    show 2 + k = k + 1 + 1 from by omega, List.getD_cons_succ]
  rw [List.getD_append _ _ _ _ (by omega)]

theorem dataFrameWith_last (seq : U16) {p : List Byte} (ck : Byte) (h : p.length = payloadWidth) :
    frameLast (dataFrameWith seq p ck) = ck := by
  simp only [payloadWidth] at h
  simp only [frameLast, dataFrameWith, byteAt]
  rw [List.getD_append_right _ _ _ _ (by simp [h])]
  simp [h]

/-- A data frame whose id has a nonzero low byte is read back (40_frame_codec.md R108). -/
theorem decodePacket_dataFrameWith (t : Tags) (seq : U16) {p : List Byte} (ck : Byte) (h : p.length = payloadWidth)
    (hs : lo8 seq ≠ 0#8) : decodePacket t (dataFrameWith seq p ck) = .data seq p ck (ckMatches p ck) := by
  simp [decodePacket, hs, dataFrameWith_payload seq ck h, dataFrameWith_last seq ck h]

/-- The ids of a request frame are read back. -/
theorem frameIds_requestFrame (t : Tags) (run : U16) {ids : List U16} :
    frameIds (requestFrame t run ids) ids.length = ids := by
  refine List.ext_getElem (by simp [frameIds]) fun j hj hj' => ?_
  have hb := ids_bytes_getD ids j hj'
  have e1 : byteAt (requestFrame t run ids) (5 + 2 * j) = lo8 (ids.getD j 0) := by
    rw [requestFrame, show 5 + 2 * j = 2 + (2 * j + 3) from by omega, controlFrame_field]
    simpa [bytesLe16] using hb.1
  have e2 : byteAt (requestFrame t run ids) (6 + 2 * j) = hi8 (ids.getD j 0) := by
    rw [requestFrame, show 6 + 2 * j = 2 + (2 * j + 1 + 3) from by omega, controlFrame_field]
    simpa [bytesLe16] using hb.2
  simp only [frameIds, List.getElem_map, List.getElem_range, e1, e2, le16_lo8_hi8]
  simp [List.getD_eq_getElem?_getD, List.getElem?_eq_getElem hj']

/-- A byte operand is read back from the record that carries it. -/
theorem byteOperand_byteCommand (op : Byte) (a : U32) {p : List Byte} (h : p.length ≤ maxCkLen) :
    (byteCommand op a p).byteOperand = p := by
  simp only [maxCkLen] at h
  have hn : (BitVec.ofNat 8 p.length).toNat = p.length := by
    rw [BitVec.toNat_ofNat]
    omega
  refine List.ext_getElem (by simp [Command.byteOperand, byteCommand, hn]) fun j hj hj' => ?_
  simp only [Command.byteOperand, byteCommand, List.getElem_map, List.getElem_range, Command.lane]
  rw [if_pos (by simp only [maxCkLen]; omega), List.getD_eq_getElem?_getD, List.getElem?_eq_getElem hj']
  rfl

end Sys2Proof.Machine
end

