-- ==== Sys2Proof/Laws/Memory.lean ====
section
/-! SUPPORT. The laws of the payload RAM: a read after a write, the form every write keeps, runs of bytes. -/

namespace Sys2Proof.Machine

@[simp] theorem memory_read_nil (a : Nat) : Memory.read [] a = none := rfl

/-- A read at the address written gives the byte written. -/
@[simp] theorem memory_read_write_same (m : Memory) (a : Nat) (v : Byte) :
    Memory.read (Memory.write m a v) a = some v := by
  induction m with
  | nil => simp [Memory.write, Memory.read]
  | cons c m ih =>
    simp only [Memory.write]
    split
    · simp [Memory.read]
    · split
      · simp [Memory.read]
      · rename_i h
        simp [Memory.read, ih, Ne.symm h]

/-- A read elsewhere is as before. -/
theorem memory_read_write_other (m : Memory) (a x : Nat) (v : Byte) (h : x ≠ a) :
    Memory.read (Memory.write m a v) x = Memory.read m x := by
  induction m with
  | nil => simp [Memory.write, Memory.read, Ne.symm h]
  | cons c m ih =>
    simp only [Memory.write]
    split
    · simp [Memory.read, Ne.symm h]
    · split
      · rename_i h'
        subst h'
        simp [Memory.read, Ne.symm h]
      · simp [Memory.read, ih]

/-- The cells after a write are the written one and cells that were there. -/
theorem memory_mem_write {m : Memory} {a : Nat} {v : Byte} {c : Host.Cell} (h : c ∈ Memory.write m a v) :
    c = (a, v) ∨ c ∈ m := by
  induction m with
  | nil => simpa [Memory.write] using h
  | cons d m ih =>
    simp only [Memory.write] at h
    split at h
    · simpa using h
    · split at h
      · simp only [List.mem_cons] at h ⊢
        tauto
      · simp only [List.mem_cons] at h ⊢
        rcases h with h | h
        · tauto
        · have := ih h
          tauto

/-- A write keeps the addresses strictly rising. -/
theorem memory_wf_write (m : Memory) (a : Nat) (v : Byte) (h : Memory.wf m) : Memory.wf (Memory.write m a v) := by
  induction m with
  | nil => simp [Memory.write, Memory.wf]
  | cons c m ih =>
    have ⟨hc, hm⟩ := List.pairwise_cons.1 h
    simp only [Memory.write]
    split
    · rename_i hlt
      refine List.pairwise_cons.2 ⟨fun d hd => ?_, h⟩
      rcases List.mem_cons.1 hd with rfl | hd
      · exact hlt
      · exact Nat.lt_trans hlt (hc d hd)
    · split
      · rename_i heq
        subst heq
        exact List.pairwise_cons.2 ⟨fun d hd => hc d hd, hm⟩
      · refine List.pairwise_cons.2 ⟨fun d hd => ?_, ih hm⟩
        rcases memory_mem_write hd with rfl | hd
        · simp only
          omega
        · exact hc d hd

/-- What a run of writes leaves at an address: the run's byte inside it, the old byte outside. -/
theorem memory_read_writeBytes (m : Memory) (a : Nat) (vs : List Byte) (x : Nat) :
    Memory.read (Memory.writeBytes m a vs) x =
      if a ≤ x ∧ x < a + vs.length then vs[x - a]? else Memory.read m x := by
  induction vs generalizing m a with
  | nil =>
    simp only [Memory.writeBytes, List.length_nil]
    rw [if_neg (by omega)]
  | cons v vs ih =>
    simp only [Memory.writeBytes, ih, List.length_cons]
    by_cases hx : x = a
    · subst hx
      rw [if_neg (by omega), if_pos (by omega)]
      simp
    · rw [memory_read_write_other _ _ _ _ hx]
      by_cases hr : a + 1 ≤ x ∧ x < a + 1 + vs.length
      · rw [if_pos hr, if_pos (by omega)]
        have : x - a = (x - (a + 1)) + 1 := by omega
        simp [this]
      · rw [if_neg hr, if_neg (by omega)]

/-- A run of writes keeps the form. -/
theorem memory_wf_writeBytes (m : Memory) (a : Nat) (vs : List Byte) (h : Memory.wf m) :
    Memory.wf (Memory.writeBytes m a vs) := by
  induction vs generalizing m a with
  | nil => exact h
  | cons v vs ih => exact ih _ _ (memory_wf_write m a v h)

/-- The cells after a run of writes lie in the run or were there. -/
theorem memory_mem_writeBytes {m : Memory} {a : Nat} {vs : List Byte} {c : Host.Cell}
    (h : c ∈ Memory.writeBytes m a vs) : (a ≤ c.1 ∧ c.1 < a + vs.length) ∨ c ∈ m := by
  induction vs generalizing m a with
  | nil => exact .inr h
  | cons v vs ih =>
    rcases ih h with h | h
    · simp only [List.length_cons]
      omega
    · rcases memory_mem_write h with rfl | h
      · simp
      · exact .inr h

/-- Reading a run succeeds exactly when every byte of it holds a value, and gives those bytes. -/
theorem memory_readBytes_eq_some (m : Memory) (a n : Nat) (l : List Byte) :
    Memory.readBytes m a n = some l ↔
      l.length = n ∧ ∀ k, k < n → Memory.read m (a + k) = some (l.getD k 0) := by
  induction n generalizing a l with
  | zero =>
    simp only [Memory.readBytes, Option.some.injEq]
    constructor
    · rintro rfl
      simp
    · intro h
      exact (List.length_eq_zero_iff.1 h.1).symm
  | succ n ih =>
    simp only [Memory.readBytes]
    constructor
    · intro h
      split at h
      · rename_i b rest hb hr
        cases h
        have ⟨hl, hk⟩ := (ih _ _).1 hr
        refine ⟨by simp [hl], fun k hkn => ?_⟩
        cases k with
        | zero => simpa using hb
        | succ k =>
          have := hk k (by omega)
          simpa [Nat.add_assoc, Nat.add_comm 1 k] using this
      · cases h
    · rintro ⟨hl, hk⟩
      cases l with
      | nil => simp at hl
      | cons b rest =>
        have h0 := hk 0 (by omega)
        have hr : Memory.readBytes m (a + 1) n = some rest := by
          refine (ih _ _).2 ⟨by simpa using hl, fun k hkn => ?_⟩
          have := hk (k + 1) (by omega)
          simpa [Nat.add_assoc, Nat.add_comm 1 k] using this
        simp only [Nat.add_zero, List.getD_cons_zero] at h0
        rw [h0, hr]

/-- A run can be read when each of its bytes holds a value. -/
theorem memory_readBytes_isSome (m : Memory) (a n : Nat)
    (h : ∀ k, k < n → (Memory.read m (a + k)).isSome = true) : ∃ l, Memory.readBytes m a n = some l := by
  induction n generalizing a with
  | zero => exact ⟨[], rfl⟩
  | succ n ih =>
    have ⟨b, hb⟩ := Option.isSome_iff_exists.1 (h 0 (by omega))
    have ⟨l, hl⟩ := ih (a + 1) fun k hk => by
      have := h (k + 1) (by omega)
      simpa [Nat.add_assoc, Nat.add_comm 1 k] using this
    exact ⟨b :: l, by simp only [Nat.add_zero] at hb; simp only [Memory.readBytes, hb, hl]⟩

/-- Runs that agree byte by byte are read alike. -/
theorem memory_readBytes_congr (m m' : Memory) (a n : Nat)
    (h : ∀ k, k < n → Memory.read m (a + k) = Memory.read m' (a + k)) :
    Memory.readBytes m a n = Memory.readBytes m' a n := by
  induction n generalizing a with
  | zero => rfl
  | succ n ih =>
    have h0 := h 0 (by omega)
    have h1 := ih (a + 1) fun k hk => by
      have := h (k + 1) (by omega)
      simpa [Nat.add_assoc, Nat.add_comm 1 k] using this
    simp only [Nat.add_zero] at h0
    simp only [Memory.readBytes, h0, h1]

/-- A read finds only what is listed. -/
theorem memory_mem_of_read {m : Memory} {a : Nat} {v : Byte} (h : Memory.read m a = some v) : (a, v) ∈ m := by
  induction m with
  | nil => simp at h
  | cons c m ih =>
    simp only [Memory.read] at h
    split at h
    · rename_i hc
      cases h
      subst hc
      exact List.mem_cons_self
    · exact List.mem_cons_of_mem _ (ih h)

/-- A read below every listed address finds nothing. -/
theorem memory_read_of_lt {m : Memory} {a : Nat} (h : ∀ c ∈ m, a < c.1) : Memory.read m a = none := by
  cases hr : Memory.read m a with
  | none => rfl
  | some v => exact absurd (h _ (memory_mem_of_read hr)) (Nat.lt_irrefl _)

/-- Equal memories are equal data: two memories in form that read alike are the same list. -/
theorem memory_ext {m m' : Memory} (h : Memory.wf m) (h' : Memory.wf m')
    (hr : ∀ a, Memory.read m a = Memory.read m' a) : m = m' := by
  induction m generalizing m' with
  | nil =>
    cases m' with
    | nil => rfl
    | cons c m' => simpa [Memory.read] using hr c.1
  | cons c m ih =>
    have ⟨hc, hm⟩ := List.pairwise_cons.1 h
    cases m' with
    | nil => simpa [Memory.read] using hr c.1
    | cons d m' =>
      have ⟨hd, hm'⟩ := List.pairwise_cons.1 h'
      have hne : c.1 = d.1 := by
        rcases Nat.lt_trichotomy c.1 d.1 with hlt | heq | hlt
        · have h1 := hr c.1
          rw [memory_read_of_lt (m := d :: m') (by
            intro x hx
            rcases List.mem_cons.1 hx with rfl | hx
            · exact hlt
            · exact Nat.lt_trans hlt (hd x hx))] at h1
          simp [Memory.read] at h1
        · exact heq
        · have h1 := hr d.1
          rw [memory_read_of_lt (m := c :: m) (by
            intro x hx
            rcases List.mem_cons.1 hx with rfl | hx
            · exact hlt
            · exact Nat.lt_trans hlt (hc x hx))] at h1
          simp [Memory.read] at h1
      have hval : c.2 = d.2 := by
        have h1 := hr c.1
        simpa [Memory.read, hne] using h1
      have hcd : c = d := Prod.ext hne hval
      subst hcd
      congr 1
      refine ih hm hm' fun a => ?_
      by_cases ha : c.1 = a
      · subst ha
        rw [memory_read_of_lt hc, memory_read_of_lt hd]
      · simpa [Memory.read, ha] using hr a

end Sys2Proof.Machine
end

