-- ==== Sys2Proof/Laws/State.lean ====
section
/-! SUPPORT. One lemma per field and update of the state, so that no later proof unfolds a record update. -/

namespace Sys2Proof.Machine

section respond

variable (s : State) (r : Response)

@[simp] theorem respond_cfg : (s.respond r).cfg = s.cfg := rfl
@[simp] theorem respond_allocated : (s.respond r).allocated = s.allocated := rfl
@[simp] theorem respond_fileSize : (s.respond r).fileSize = s.fileSize := rfl
@[simp] theorem respond_expectedCount : (s.respond r).expectedCount = s.expectedCount := rfl
@[simp] theorem respond_storedCount : (s.respond r).storedCount = s.storedCount := rfl
@[simp] theorem respond_events : (s.respond r).events = s.events := rfl
@[simp] theorem respond_bits : (s.respond r).bits = s.bits := rfl
@[simp] theorem respond_mem : (s.respond r).mem = s.mem := rfl
@[simp] theorem respond_input : (s.respond r).input = s.input := rfl
@[simp] theorem respond_response : (s.respond r).response = r := rfl

end respond

section refuse

variable (s : State) (st : Status)

@[simp] theorem refuse_cfg : (s.refuse st).cfg = s.cfg := rfl
@[simp] theorem refuse_allocated : (s.refuse st).allocated = s.allocated := rfl
@[simp] theorem refuse_fileSize : (s.refuse st).fileSize = s.fileSize := rfl
@[simp] theorem refuse_expectedCount : (s.refuse st).expectedCount = s.expectedCount := rfl
@[simp] theorem refuse_storedCount : (s.refuse st).storedCount = s.storedCount := rfl
@[simp] theorem refuse_events : (s.refuse st).events = s.events := rfl
@[simp] theorem refuse_bits : (s.refuse st).bits = s.bits := rfl
@[simp] theorem refuse_mem : (s.refuse st).mem = s.mem := rfl
@[simp] theorem refuse_input : (s.refuse st).input = s.input := rfl
@[simp] theorem refuse_response : (s.refuse st).response = errorResponse st := rfl

end refuse

section setEvent

variable (s : State) (f : BitVec 3)

@[simp] theorem setEvent_cfg : (s.setEvent f).cfg = s.cfg := rfl
@[simp] theorem setEvent_allocated : (s.setEvent f).allocated = s.allocated := rfl
@[simp] theorem setEvent_fileSize : (s.setEvent f).fileSize = s.fileSize := rfl
@[simp] theorem setEvent_expectedCount : (s.setEvent f).expectedCount = s.expectedCount := rfl
@[simp] theorem setEvent_storedCount : (s.setEvent f).storedCount = s.storedCount := rfl
@[simp] theorem setEvent_events : (s.setEvent f).events = setFlag s.events f := rfl
@[simp] theorem setEvent_bits : (s.setEvent f).bits = s.bits := rfl
@[simp] theorem setEvent_mem : (s.setEvent f).mem = s.mem := rfl
@[simp] theorem setEvent_input : (s.setEvent f).input = s.input := rfl
@[simp] theorem setEvent_response : (s.setEvent f).response = s.response := rfl

end setEvent

section emptied

variable (s : State)

@[simp] theorem emptied_cfg : s.emptied.cfg = s.cfg := rfl
@[simp] theorem emptied_allocated : s.emptied.allocated = false := rfl
@[simp] theorem emptied_fileSize : s.emptied.fileSize = 0 := rfl
@[simp] theorem emptied_expectedCount : s.emptied.expectedCount = 0 := rfl
@[simp] theorem emptied_storedCount : s.emptied.storedCount = 0 := rfl
@[simp] theorem emptied_events : s.emptied.events = 0 := rfl
@[simp] theorem emptied_bits : s.emptied.bits = [] := rfl
@[simp] theorem emptied_mem : s.emptied.mem = s.mem := rfl
@[simp] theorem emptied_input : s.emptied.input = s.input := rfl
@[simp] theorem emptied_response : s.emptied.response = s.response := rfl

end emptied

section hardReset

variable (s : State)

@[simp] theorem hardReset_cfg : s.hardReset.cfg = s.cfg := rfl
@[simp] theorem hardReset_allocated : s.hardReset.allocated = false := rfl
@[simp] theorem hardReset_fileSize : s.hardReset.fileSize = 0 := rfl
@[simp] theorem hardReset_expectedCount : s.hardReset.expectedCount = 0 := rfl
@[simp] theorem hardReset_storedCount : s.hardReset.storedCount = 0 := rfl
@[simp] theorem hardReset_events : s.hardReset.events = 0 := rfl
@[simp] theorem hardReset_bits : s.hardReset.bits = [] := rfl
@[simp] theorem hardReset_mem : s.hardReset.mem = s.mem := rfl
@[simp] theorem hardReset_input : s.hardReset.input = s.input := rfl
@[simp] theorem hardReset_response : s.hardReset.response = {} := rfl

end hardReset

section storeSlot

variable (s : State) (slot : Nat) (p : List Byte)

@[simp] theorem storeSlot_cfg : (s.storeSlot slot p).cfg = s.cfg := rfl
@[simp] theorem storeSlot_allocated : (s.storeSlot slot p).allocated = s.allocated := rfl
@[simp] theorem storeSlot_fileSize : (s.storeSlot slot p).fileSize = s.fileSize := rfl
@[simp] theorem storeSlot_expectedCount : (s.storeSlot slot p).expectedCount = s.expectedCount := rfl
@[simp] theorem storeSlot_storedCount : (s.storeSlot slot p).storedCount = if s.bit slot then s.storedCount else s.storedCount + 1 := rfl
@[simp] theorem storeSlot_events : (s.storeSlot slot p).events = s.events := rfl
@[simp] theorem storeSlot_bits : (s.storeSlot slot p).bits = Bitmap.set s.bits slot := rfl
@[simp] theorem storeSlot_mem : (s.storeSlot slot p).mem = Memory.writeBytes s.mem (slotAddr slot) p := rfl
@[simp] theorem storeSlot_input : (s.storeSlot slot p).input = s.input := rfl
@[simp] theorem storeSlot_response : (s.storeSlot slot p).response = s.response := rfl

end storeSlot

section place

variable (s : State) (w : PortWord)

@[simp] theorem place_cfg : (s.place w).cfg = s.cfg := rfl
@[simp] theorem place_allocated : (s.place w).allocated = s.allocated := rfl
@[simp] theorem place_fileSize : (s.place w).fileSize = s.fileSize := rfl
@[simp] theorem place_expectedCount : (s.place w).expectedCount = s.expectedCount := rfl
@[simp] theorem place_storedCount : (s.place w).storedCount = s.storedCount := rfl
@[simp] theorem place_events : (s.place w).events = s.events := rfl
@[simp] theorem place_bits : (s.place w).bits = s.bits := rfl
@[simp] theorem place_mem : (s.place w).mem = s.mem := rfl
@[simp] theorem place_input : (s.place w).input = .issue w :: s.input := rfl
@[simp] theorem place_response : (s.place w).response = s.response := rfl

end place

section opened

variable (s : State) (z : U32)

@[simp] theorem opened_cfg : (s.opened z).cfg = s.cfg := rfl
@[simp] theorem opened_allocated : (s.opened z).allocated = true := rfl
@[simp] theorem opened_fileSize : (s.opened z).fileSize = z := rfl
@[simp] theorem opened_expectedCount : (s.opened z).expectedCount = BitVec.ofNat 16 (packetCount z) := rfl
@[simp] theorem opened_storedCount : (s.opened z).storedCount = 0 := rfl
@[simp] theorem opened_events : (s.opened z).events = s.events := rfl
@[simp] theorem opened_bits : (s.opened z).bits = [] := rfl
@[simp] theorem opened_mem : (s.opened z).mem = s.mem := rfl
@[simp] theorem opened_input : (s.opened z).input = s.input := rfl
@[simp] theorem opened_response : (s.opened z).response = s.response := rfl

end opened

/-- Two responses in a row: the later one stands. -/
@[simp] theorem respond_respond (s : State) (r r' : Response) : (s.respond r).respond r' = s.respond r' := rfl

/-- A state with its own response put back is itself. -/
@[simp] theorem respond_self (s : State) : s.respond s.response = s := rfl

@[simp] theorem respond_bit (s : State) (r : Response) (slot : Nat) : (s.respond r).bit slot = s.bit slot := rfl

@[simp] theorem setEvent_bit (s : State) (f : BitVec 3) (slot : Nat) : (s.setEvent f).bit slot = s.bit slot := rfl

@[simp] theorem respond_readSlot (s : State) (r : Response) (slot : Nat) :
    (s.respond r).readSlot slot = s.readSlot slot := rfl

@[simp] theorem setEvent_readSlot (s : State) (f : BitVec 3) (slot : Nat) :
    (s.setEvent f).readSlot slot = s.readSlot slot := rfl

/-- Setting no flag changes nothing. -/
@[simp] theorem setEvent_zero (s : State) : s.setEvent 0#3 = s := by
  simp [State.setEvent, setFlag]

end Sys2Proof.Machine
end

