-- ==== Sys2Proof/Laws/Ops.lean ====
section
/-! SUPPORT. What the shared operations can do: the checks answer a refusal or go on, and an instruction that completes does one of a
few things to the state. -/

namespace Sys2Proof.Machine

/-! ## The checks -/

theorem withLength_next {s t : State} {b : Bool} {k : Result} (h : s.withLength b k = .next t) :
    (b = false ∧ t = s.refuse .badLen) ∨ (b = true ∧ k = .next t) := by
  cases b with
  | false =>
    simp only [State.withLength, Bool.false_eq_true, if_false, State.raise, Host.Outcome.next.injEq] at h
    exact .inl ⟨rfl, h.symm⟩
  | true =>
    simp only [State.withLength, if_true] at h
    exact .inr ⟨rfl, h⟩

@[simp] theorem withLength_true (s : State) (k : Result) : s.withLength true k = k := rfl

@[simp] theorem withLength_false (s : State) (k : Result) : s.withLength false k = s.raise .badLen := rfl

/-- A frame operand of 32 bytes is admitted, any other is not. -/
theorem withLength_frame (s : State) {f : List Byte} (k : Result) (h : f.length = 32) :
    s.withLength (f.length == frameBytes) k = k := by
  rw [h]
  rfl

theorem withLength_badFrame (s : State) {f : List Byte} (k : Result) (h : f.length ≠ 32) :
    s.withLength (f.length == frameBytes) k = s.raise .badLen := by
  have : (f.length == frameBytes) = false := by simpa using h
  rw [this, withLength_false]

/-- An operand of at most `n` bytes or ids is admitted, a longer one is not. -/
theorem withLength_le (s : State) {m n : Nat} (k : Result) (h : m ≤ n) : s.withLength (decide (m ≤ n)) k = k := by
  simp [h]

theorem withLength_gt (s : State) {m n : Nat} (k : Result) (h : n < m) :
    s.withLength (decide (m ≤ n)) k = s.raise .badLen := by
  have : ¬ m ≤ n := by omega
  simp [this]

@[simp] theorem errorResponse_status (st : Status) : (errorResponse st).status = st := rfl

/-- The checks of a named slot, when they answer a next state. -/
theorem withSlot_next {s t : State} {seq : U16} {k : Nat → Result} (h : s.withSlot seq k = .next t) :
    (s.allocated = false ∧ t = s.refuse .notAllocated)
    ∨ (s.allocated = true ∧ (seq.toNat < 1 ∨ s.expectedCount.toNat < seq.toNat) ∧ t = s.refuse .range)
    ∨ (s.allocated = true ∧ 1 ≤ seq.toNat ∧ seq.toNat ≤ s.expectedCount.toNat ∧ seq.toNat < s.cfg.storeDepth
        ∧ k seq.toNat = .next t) := by
  simp only [State.withSlot, State.raise] at h
  split at h
  · rename_i ha
    cases h
    exact .inl ⟨ha, rfl⟩
  · rename_i ha
    split at h
    · rename_i hr
      cases h
      exact .inr (.inl ⟨by simpa using ha, hr, rfl⟩)
    · split at h
      · cases h
      · exact .inr (.inr ⟨by simpa using ha, by omega, by omega, by omega, h⟩)

theorem withSlot_notAllocated {s : State} (seq : U16) (k : Nat → Result) (h : s.allocated = false) :
    s.withSlot seq k = s.raise .notAllocated := by
  simp [State.withSlot, h]

theorem withSlot_range {s : State} {seq : U16} (k : Nat → Result) (h : s.allocated = true)
    (hr : seq.toNat < 1 ∨ s.expectedCount.toNat < seq.toNat) : s.withSlot seq k = s.raise .range := by
  simp only [State.withSlot, h, Bool.true_eq_false, if_false, if_pos hr]

theorem withSlot_ok {s : State} {seq : U16} (k : Nat → Result) (h : s.allocated = true) (h1 : 1 ≤ seq.toNat)
    (h2 : seq.toNat ≤ s.expectedCount.toNat) (h3 : seq.toNat < s.cfg.storeDepth) :
    s.withSlot seq k = k seq.toNat := by
  simp only [State.withSlot, h, Bool.true_eq_false, if_false]
  rw [if_neg (by omega), if_neg (by omega)]

/-- The checks of a named count, when they answer a next state. -/
theorem withCount_next {s t : State} {c : U16} {k : Nat → Result} (h : s.withCount c k = .next t) :
    (s.allocated = false ∧ t = s.refuse .notAllocated)
    ∨ (s.allocated = true ∧ s.expectedCount.toNat < c.toNat ∧ t = s.refuse .range)
    ∨ (s.allocated = true ∧ c.toNat ≤ s.expectedCount.toNat ∧ c.toNat < s.cfg.storeDepth ∧ k c.toNat = .next t) := by
  simp only [State.withCount, State.raise] at h
  split at h
  · rename_i ha
    cases h
    exact .inl ⟨ha, rfl⟩
  · rename_i ha
    split at h
    · rename_i hr
      cases h
      exact .inr (.inl ⟨by simpa using ha, hr, rfl⟩)
    · split at h
      · cases h
      · exact .inr (.inr ⟨by simpa using ha, by omega, by omega, h⟩)

theorem withCount_notAllocated {s : State} (c : U16) (k : Nat → Result) (h : s.allocated = false) :
    s.withCount c k = s.raise .notAllocated := by
  simp [State.withCount, h]

theorem withCount_range {s : State} {c : U16} (k : Nat → Result) (h : s.allocated = true)
    (hr : s.expectedCount.toNat < c.toNat) : s.withCount c k = s.raise .range := by
  simp only [State.withCount, h, Bool.true_eq_false, if_false, if_pos hr]

theorem withCount_ok {s : State} {c : U16} (k : Nat → Result) (h : s.allocated = true)
    (h2 : c.toNat ≤ s.expectedCount.toNat) (h3 : c.toNat < s.cfg.storeDepth) : s.withCount c k = k c.toNat := by
  simp only [State.withCount, h, Bool.true_eq_false, if_false]
  rw [if_neg (by omega), if_neg (by omega)]

/-- The read of a stored slot, when it answers a next state. -/
theorem withStored_next {s t : State} {seq : U16} {k : List Byte → Result} (h : s.withStored seq k = .next t) :
    (s.allocated = false ∧ t = s.refuse .notAllocated)
    ∨ (s.allocated = true ∧ (seq.toNat < 1 ∨ s.expectedCount.toNat < seq.toNat) ∧ t = s.refuse .range)
    ∨ (s.allocated = true ∧ 1 ≤ seq.toNat ∧ seq.toNat ≤ s.expectedCount.toNat ∧ seq.toNat < s.cfg.storeDepth
        ∧ s.bit seq.toNat = false ∧ t = s.refuse .unwritten)
    ∨ (s.allocated = true ∧ 1 ≤ seq.toNat ∧ seq.toNat ≤ s.expectedCount.toNat ∧ seq.toNat < s.cfg.storeDepth
        ∧ s.bit seq.toNat = true ∧ ∃ p, s.readSlot seq.toNat = some p ∧ k p = .next t) := by
  rcases withSlot_next h with h | h | ⟨ha, h1, h2, h3, h⟩
  · exact .inl h
  · exact .inr (.inl h)
  · refine .inr (.inr ?_)
    split at h
    · rename_i hb
      split at h
      · rename_i p hp
        exact .inr ⟨ha, h1, h2, h3, hb, p, hp, h⟩
      · cases h
    · rename_i hb
      simp only [State.raise, Host.Outcome.next.injEq] at h
      exact .inl ⟨ha, h1, h2, h3, by simpa using hb, h.symm⟩

theorem withStored_ok {s : State} {seq : U16} {p : List Byte} (k : List Byte → Result) (h : s.allocated = true)
    (h1 : 1 ≤ seq.toNat) (h2 : seq.toNat ≤ s.expectedCount.toNat) (h3 : seq.toNat < s.cfg.storeDepth)
    (hb : s.bit seq.toNat = true) (hp : s.readSlot seq.toNat = some p) : s.withStored seq k = k p := by
  rw [State.withStored, withSlot_ok _ h h1 h2 h3]
  simp [hb, hp]

theorem withStored_unwritten {s : State} {seq : U16} (k : List Byte → Result) (h : s.allocated = true)
    (h1 : 1 ≤ seq.toNat) (h2 : seq.toNat ≤ s.expectedCount.toNat) (h3 : seq.toNat < s.cfg.storeDepth)
    (hb : s.bit seq.toNat = false) : s.withStored seq k = s.raise .unwritten := by
  rw [State.withStored, withSlot_ok _ h h1 h2 h3]
  simp [hb]

/-! ## Slots -/

/-- A padded payload has 29 bytes. -/
theorem pad29_length {p : List Byte} (h : p.length ≤ payloadWidth) : (pad29 p).length = 29 := by
  simp only [pad29, List.length_append, List.length_replicate]
  simp only [payloadWidth] at h ⊢
  omega

/-- The payload field of a 32-byte frame has 29 bytes. -/
theorem framePayload_length {f : List Byte} (h : f.length = frameBytes) : (framePayload f).length = 29 := by
  simp [framePayload, h, frameBytes, payloadWidth]

/-- A frame that decodes as data decodes with its own payload field. -/
theorem decodePacket_payload {t : Tags} {f p : List Byte} {seq : U16} {ck : Byte} {ok : Bool}
    (h : decodePacket t f = .data seq p ck ok) : p = framePayload f := by
  unfold decodePacket at h
  split at h
  · cases h
    rfl
  · repeat' split at h
    all_goals cases h

/-- Two flags set one after the other are both set. -/
theorem setEvent_setEvent (s : State) (f g : BitVec 3) : (s.setEvent f).setEvent g = s.setEvent (f ||| g) := by
  simp [State.setEvent, setFlag, BitVec.or_assoc]

/-- The mismatch flag is set, or nothing is. -/
theorem noteChecksum_eq (s : State) (ok : Bool) :
    s.noteChecksum ok = s.setEvent (if ok then 0#3 else ckMismatchSeen) := by
  cases ok <;> simp [State.noteChecksum]

theorem storeSlot_bit (s : State) (slot : Nat) (p : List Byte) (x : Nat) :
    (s.storeSlot slot p).bit x = (x == slot || s.bit x) :=
  bitmap_test_set s.bits slot x

/-- A byte of the RAM after a slot was stored. -/
theorem storeSlot_read (s : State) (slot : Nat) {p : List Byte} (hp : p.length = 29) (a : Nat) :
    Memory.read (s.storeSlot slot p).mem a =
      if 29 * slot ≤ a ∧ a < 29 * slot + 29 then p[a - 29 * slot]? else Memory.read s.mem a := by
  rw [storeSlot_mem, memory_read_writeBytes, hp]
  rfl

/-- The slot just stored reads as what was stored. -/
theorem storeSlot_readSlot_same (s : State) (slot : Nat) {p : List Byte} (hp : p.length = 29) :
    (s.storeSlot slot p).readSlot slot = some p := by
  refine (memory_readBytes_eq_some _ _ _ _).2 ⟨hp, fun k hk => ?_⟩
  simp only [slotAddr, payloadWidth] at hk ⊢
  rw [storeSlot_read s slot hp, if_pos (by omega)]
  have : 29 * slot + k - 29 * slot = k := by omega
  rw [this, List.getD_eq_getElem?_getD, List.getElem?_eq_getElem (by omega)]
  rfl

/-- Every other slot reads as before. -/
theorem storeSlot_readSlot_other (s : State) (slot x : Nat) {p : List Byte} (hp : p.length = 29) (hx : x ≠ slot) :
    (s.storeSlot slot p).readSlot x = s.readSlot x := by
  refine memory_readBytes_congr _ _ _ _ fun k hk => ?_
  simp only [slotAddr, payloadWidth] at hk ⊢
  rw [storeSlot_read s slot hp, if_neg (by omega)]

/-! ## What an instruction can do -/

/-- What the instruction `i` does to the state when it completes, its response aside: nothing; open an empty store
(`ALLOC`); empty the block (`FREE`); set flags (`RX_FRAME`); or store one slot of the session (`PUT`, `TX_DATA`, and
`RX_FRAME`, which may set flags with it), the one `writtenSlot` gives. -/
inductive Effect (i : Instr) (s : State) : State → Prop where
  | same : Effect i s s
  | opened (z : U32) (closed : s.allocated = false) (fits : packetCount z + 1 ≤ s.cfg.storeDepth)
      (source : i = .alloc z) : Effect i s (s.opened z)
  | emptied (source : i = .free) : Effect i s s.emptied
  | flagged (f : BitVec 3) (source : ∃ g, i = .rxFrame g) : Effect i s (s.setEvent f)
  | stored (f : BitVec 3) (slot : Nat) (p : List Byte) (isOpen : s.allocated = true) (low : 1 ≤ slot)
      (high : slot ≤ s.expectedCount.toNat) (depth : slot < s.cfg.storeDepth) (width : p.length = 29)
      (named : writtenSlot s.cfg.tags i = some slot)
      (source : (∃ g, i = .rxFrame g) ∨ f = 0 ∧ ((∃ seq q, i = .put seq q) ∨ ∃ seq q, i = .txData seq q)) :
      Effect i s ((s.setEvent f).storeSlot slot p)

/-- How an instruction that completes ends: it is refused with a status of its own and nothing but the response changes,
or it has an effect and answers `OK`. (`BAD_OP` is the decoder's alone.) -/
def Outcomes (i : Instr) (s t : State) : Prop :=
  (∃ st, st ≠ .ok ∧ st ≠ .badOp ∧ t = s.refuse st) ∨ ∃ u, Effect i s u ∧ ∃ r, r.status = .ok ∧ t = u.respond r

theorem outcomes_done {i : Instr} {s u t : State} {r : Response} (he : Effect i s u) (h : u.done r = .next t)
    (hr : r.status = .ok) : Outcomes i s t := by
  simp only [State.done, Host.Outcome.next.injEq] at h
  exact .inr ⟨u, he, r, hr, h.symm⟩

theorem outcomes_refuse (i : Instr) (s : State) {st : Status} (h : st ≠ .ok) (h' : st ≠ .badOp) : Outcomes i s (s.refuse st) :=
  .inl ⟨st, h, h', rfl⟩

theorem outcomes_withLength {i : Instr} {s t : State} {b : Bool} {k : Result} (h : s.withLength b k = .next t)
    (hk : b = true → k = .next t → Outcomes i s t) : Outcomes i s t := by
  rcases withLength_next h with ⟨_, rfl⟩ | ⟨hb, h⟩
  · exact outcomes_refuse _ _ (by decide) (by decide)
  · exact hk hb h

theorem outcomes_withSlot {i : Instr} {s t : State} {seq : U16} {k : Nat → Result} (h : s.withSlot seq k = .next t)
    (hk : s.allocated = true → 1 ≤ seq.toNat → seq.toNat ≤ s.expectedCount.toNat → seq.toNat < s.cfg.storeDepth →
      k seq.toNat = .next t → Outcomes i s t) : Outcomes i s t := by
  rcases withSlot_next h with ⟨_, rfl⟩ | ⟨_, _, rfl⟩ | ⟨ha, h1, h2, h3, h⟩
  · exact outcomes_refuse _ _ (by decide) (by decide)
  · exact outcomes_refuse _ _ (by decide) (by decide)
  · exact hk ha h1 h2 h3 h

theorem outcomes_withCount {i : Instr} {s t : State} {c : U16} {k : Nat → Result} (h : s.withCount c k = .next t)
    (hk : k c.toNat = .next t → Outcomes i s t) : Outcomes i s t := by
  rcases withCount_next h with ⟨_, rfl⟩ | ⟨_, _, rfl⟩ | ⟨_, _, _, h⟩
  · exact outcomes_refuse _ _ (by decide) (by decide)
  · exact outcomes_refuse _ _ (by decide) (by decide)
  · exact hk h

theorem outcomes_withStored {i : Instr} {s t : State} {seq : U16} {k : List Byte → Result} (h : s.withStored seq k = .next t)
    (hk : ∀ p, k p = .next t → Outcomes i s t) : Outcomes i s t := by
  rcases withStored_next h with ⟨_, rfl⟩ | ⟨_, _, rfl⟩ | ⟨_, _, _, _, _, rfl⟩ | ⟨_, _, _, _, _, p, _, h⟩
  · exact outcomes_refuse _ _ (by decide) (by decide)
  · exact outcomes_refuse _ _ (by decide) (by decide)
  · exact outcomes_refuse _ _ (by decide) (by decide)
  · exact hk p h

theorem outcomes_receiveData {s t : State} {seq : U16} {p f : List Byte} {ok : Bool} {pkt : Packet}
    (hp : p.length = 29) (hw : writtenSlot s.cfg.tags (.rxFrame f) = some seq.toNat)
    (h : receiveData seq p ok pkt s = .next t) : Outcomes (.rxFrame f) s t := by
  refine outcomes_withSlot h fun ha h1 h2 h3 h => ?_
  simp only [noteChecksum_eq, setEvent_setEvent] at h
  split at h
  · exact outcomes_done (.flagged _ ⟨f, rfl⟩) h rfl
  · split at h
    · exact outcomes_done (.flagged _ ⟨f, rfl⟩) h rfl
    · exact outcomes_done (.stored _ _ _ ha h1 h2 h3 hp hw (.inl ⟨f, rfl⟩)) h rfl

theorem outcomes_rxFrame {s t : State} {f : List Byte} (h : execRxFrame f s = .next t) : Outcomes (.rxFrame f) s t := by
  refine outcomes_withLength h fun hf h => ?_
  have hf : f.length = frameBytes := by simpa using hf
  generalize hd : decodePacket s.cfg.tags f = pkt at h
  cases pkt with
  | data seq p ck ok =>
    refine outcomes_receiveData ?_ (by rw [writtenSlot, hd]) h
    rw [decodePacket_payload hd, framePayload_length hf]
  | junk g => exact outcomes_done (.flagged _ ⟨f, rfl⟩) h rfl
  | start _ | endPacket _ | retransmitRequest _ _ | allClear | prematureEnd => exact outcomes_done .same h rfl

/-- What `exec` can do. Every invariant of the machine follows from this by cases. -/
theorem exec_outcomes {i : Instr} {s t : State} (h : exec i s = .next t) : Outcomes i s t := by
  cases i with
  | frameData seq p ck => exact outcomes_done .same h rfl
  | frameStart z => exact outcomes_done .same h rfl
  | frameRetransmitRequest run ids => exact outcomes_done .same h rfl
  | frameAllClear => exact outcomes_done .same h rfl
  | framePrematureEnd => exact outcomes_done .same h rfl
  | frameEnd n => exact outcomes_done .same h rfl
  | frameJunk g => exact outcomes_done .same h rfl
  | encData seq p => exact outcomes_withLength h fun _ h => outcomes_done .same h rfl
  | encStart z => exact outcomes_done .same h rfl
  | encRreq run ids => exact outcomes_withLength h fun _ h => outcomes_done .same h rfl
  | encAllclear => exact outcomes_done .same h rfl
  | encPremend => exact outcomes_done .same h rfl
  | encEnd n => exact outcomes_done .same h rfl
  | decode f => exact outcomes_withLength h fun _ h => outcomes_done .same h rfl
  | fletcher8 b => exact outcomes_withLength h fun _ h => outcomes_done .same h rfl
  | verify f => exact outcomes_withLength h fun _ h => outcomes_done .same h rfl
  | alloc z =>
    simp only [exec, execAlloc] at h
    split at h
    · cases h
      exact outcomes_refuse _ _ (by decide) (by decide)
    · rename_i ha
      split at h
      · cases h
        exact outcomes_refuse _ _ (by decide) (by decide)
      · exact outcomes_done (.opened z (by simpa using ha) (by omega) rfl) h rfl
  | free => exact outcomes_done (.emptied rfl) h rfl
  | put seq p =>
    refine outcomes_withLength h fun hl h => outcomes_withSlot h fun ha h1 h2 h3 h => ?_
    rw [← setEvent_zero s] at h
    exact outcomes_done 
      (.stored 0 _ _ ha h1 h2 h3 (pad29_length (by simpa using hl)) rfl (.inr ⟨rfl, .inl ⟨seq, p, rfl⟩⟩)) h rfl
  | get seq => exact outcomes_withStored h fun p h => outcomes_done .same h rfl
  | test seq =>
    simp only [exec, execTest] at h
    exact outcomes_withSlot h fun _ _ _ _ h => outcomes_done .same h rfl
  | missing c =>
    simp only [exec, execMissing] at h
    exact outcomes_withCount h fun h => outcomes_done .same h rfl
  | assemble c =>
    simp only [exec, execAssemble] at h
    refine outcomes_withCount h fun h => ?_
    split at h
    · split at h
      · exact outcomes_done .same h rfl
      · split at h
        · exact outcomes_done .same h rfl
        · cases h
    · cases h
      exact outcomes_refuse _ _ (by decide) (by decide)
  | stat => exact outcomes_done .same h rfl
  | txData seq p =>
    refine outcomes_withLength h fun hl h => outcomes_withSlot h fun ha h1 h2 h3 h => ?_
    rw [← setEvent_zero s] at h
    exact outcomes_done 
      (.stored 0 _ _ ha h1 h2 h3 (pad29_length (by simpa using hl)) rfl (.inr ⟨rfl, .inr ⟨seq, p, rfl⟩⟩)) h rfl
  | retx seq => exact outcomes_withStored h fun p h => outcomes_done .same h rfl
  | rxFrame f => exact outcomes_rxFrame h

/-- What a step can do: wait, refuse an unreadable word, reset, or run a decoded instruction. -/
theorem step_cases {s t : State} (h : step s = .next t) :
    (s.input = [] ∧ t = s)
    ∨ (∃ w rest st, s.input = .issue w :: rest ∧ decode s.cfg.tags w = .reject st
        ∧ t = { s with input := rest }.refuse st)
    ∨ (∃ rest, (s.input = .reset :: rest ∨ ∃ w, s.input = .resetDuring w :: rest)
        ∧ t = { s with input := rest }.hardReset)
    ∨ (∃ w rest i, s.input = .issue w :: rest ∧ decode s.cfg.tags w = .instr i
        ∧ exec i { s with input := rest } = .next t) := by
  unfold step State.fetch at h
  split at h
  · rename_i s' hf
    cases h
    split at hf
    · cases hf
      exact .inl ⟨by assumption, rfl⟩
    · cases hf
      exact .inr (.inr (.inl ⟨_, .inl (by assumption), rfl⟩))
    · cases hf
      exact .inr (.inr (.inl ⟨_, .inr ⟨_, by assumption⟩, rfl⟩))
    · split at hf
      · cases hf
      · cases hf
        exact .inr (.inl ⟨_, _, _, by assumption, by assumption, rfl⟩)
  · rename_i i s' hf
    split at hf
    · cases hf
    · cases hf
    · cases hf
    · split at hf
      · cases hf
        exact .inr (.inr (.inr ⟨_, _, _, by assumption, by assumption, h⟩))
      · cases hf

/-- A run takes its first step and goes on. -/
theorem core_run_succ {s t : State} (h : step s = .next t) (k : Nat) :
    Host.Core.run Sys2Proof.core (k + 1) s = Host.Core.run Sys2Proof.core k t := by
  have h' : Sys2Proof.core.step s = .next t := h
  exact (Host.Core.run.eq_2 Sys2Proof.core s k).trans (by rw [h'])

end Sys2Proof.Machine
end

