-- ==== Sys2Proof/Laws/PerInstr.lean ====
section
/-! SUPPORT. Statements made per instruction, about the instruction as syntax: a well-formed instruction is encoded in a word the
ports can carry (spec 30_encoding.md R70, R90). -/

open Sys2Proof Sys2Proof.Machine

namespace Sys2Proof.Laws.EncodesToAPortWord

/-- The encoding of a well-formed instruction is a frame of 32 bytes or a command whose operand fits the lanes. -/
def Statement (i : Instr) : Prop := ∀ t : Tags, i.wf t = true → (encode t i).wf = true

/-- A control frame whose fields fit the payload field is carried. -/
theorem of_controlFrame (tag : Byte) {fields : List Byte} (h : fields.length ≤ payloadWidth) :
    (PortWord.frame (controlFrame tag fields)).wf = true :=
  beq_iff_eq.2 (controlFrame_length tag h)

/-- A command whose byte operand fits the lanes is carried. -/
theorem of_byteCommand (op : Byte) (a : U32) {p : List Byte} (h : p.length ≤ maxCkLen) :
    (PortWord.command (byteCommand op a p)).wf = true :=
  decide_eq_true h

/-- The lanes hold a payload. -/
theorem payload_le_lanes {p : List Byte} (h : decide (p.length ≤ payloadWidth) = true) : p.length ≤ maxCkLen :=
  Nat.le_trans (of_decide_eq_true h) (by decide)

/-- The lanes hold a frame. -/
theorem frame_le_lanes {f : List Byte} (h : (f.length == frameBytes) = true) : f.length ≤ maxCkLen :=
  Nat.le_of_eq (beq_iff_eq.1 h)

theorem frameData (seq : U16) (payload : List Byte) (ck : Byte) : Statement (.frameData seq payload ck) := fun _ h => by
  simp only [Instr.wf, Bool.and_eq_true, beq_iff_eq] at h
  exact beq_iff_eq.2 (dataFrameWith_length seq ck h.2)

theorem frameStart (z : U32) : Statement (.frameStart z) := fun _ _ =>
  of_controlFrame _ (show 4 ≤ 29 by decide)

theorem frameRetransmitRequest (run : U16) (ids : List U16) : Statement (.frameRetransmitRequest run ids) :=
  fun _ h => of_controlFrame _ (by
    have hl : ids.length ≤ 13 := of_decide_eq_true h
    have := ids_bytes_length ids
    simp only [List.cons_append, List.length_cons, List.length_append, bytesLe16_length, payloadWidth]
    omega)

theorem frameAllClear : Statement .frameAllClear := fun _ _ => of_controlFrame _ (Nat.zero_le _)

theorem framePrematureEnd : Statement .framePrematureEnd := fun _ _ => of_controlFrame _ (Nat.zero_le _)

theorem frameEnd (total : U16) : Statement (.frameEnd total) := fun _ _ => of_controlFrame _ (show 2 ≤ 29 by decide)

theorem frameJunk (tag : Byte) : Statement (.frameJunk tag) := fun _ _ => of_controlFrame _ (show 1 ≤ 29 by decide)

theorem encData (seq : U16) (p : List Byte) : Statement (.encData seq p) := fun _ h =>
  of_byteCommand _ _ (payload_le_lanes h)

theorem encStart (z : U32) : Statement (.encStart z) := fun _ _ => rfl

theorem encRreq (run : U16) (ids : List U16) : Statement (.encRreq run ids) := fun _ h => decide_eq_true (by
  have hl : ids.length ≤ 13 := of_decide_eq_true h
  have := ids_bytes_length ids
  simp only [maxCkLen]
  omega)

theorem encAllclear : Statement .encAllclear := fun _ _ => rfl

theorem encPremend : Statement .encPremend := fun _ _ => rfl

theorem encEnd (total : U16) : Statement (.encEnd total) := fun _ _ => rfl

theorem decode (f : List Byte) : Statement (.decode f) := fun _ h => of_byteCommand _ _ (frame_le_lanes h)

theorem fletcher8 (bytes : List Byte) : Statement (.fletcher8 bytes) := fun _ h =>
  of_byteCommand _ _ (of_decide_eq_true h)

theorem verify (f : List Byte) : Statement (.verify f) := fun _ h => of_byteCommand _ _ (frame_le_lanes h)

theorem alloc (z : U32) : Statement (.alloc z) := fun _ _ => rfl

theorem free : Statement .free := fun _ _ => rfl

theorem put (seq : U16) (p : List Byte) : Statement (.put seq p) := fun _ h => of_byteCommand _ _ (payload_le_lanes h)

theorem get (seq : U16) : Statement (.get seq) := fun _ _ => rfl

theorem test (seq : U16) : Statement (.test seq) := fun _ _ => rfl

theorem missing (count : U16) : Statement (.missing count) := fun _ _ => rfl

theorem assemble (h : U16) : Statement (.assemble h) := fun _ _ => rfl

theorem stat : Statement .stat := fun _ _ => rfl

theorem txData (seq : U16) (p : List Byte) : Statement (.txData seq p) := fun _ h =>
  of_byteCommand _ _ (payload_le_lanes h)

theorem retx (seq : U16) : Statement (.retx seq) := fun _ _ => rfl

theorem rxFrame (f : List Byte) : Statement (.rxFrame f) := fun _ h => of_byteCommand _ _ (frame_le_lanes h)

end Sys2Proof.Laws.EncodesToAPortWord
end

