-- ==== Sys2Proof/Laws/Sound.lean ====
section
/-! SUPPORT. How each update of the state treats the invariant, and what a sound state guarantees the operations. -/

namespace Sys2Proof.Machine

/-- A block that was just reset is sound, whatever admitted parameters it was built with. -/
theorem built_inv {c : Config} (h : c.valid) : State.Inv { State.reset with cfg := c } where
  valid := h
  sound := by
    refine ⟨fun _ => ⟨rfl, rfl, rfl, fun _ => rfl⟩, ?_, ?_, ?_, rfl⟩
    · intro h
      cases h
    · intro h
      cases h
    · intro slot h
      cases h
  formed := by
    refine ⟨.nil, .nil, ?_, ?_⟩
    · intro cell h
      cases h
    · intro slot h
      cases h

theorem reset_inv : State.reset.Inv := built_inv (c := Config.default) (by decide)

/-- The invariant does not speak of the two ports. -/
theorem respond_inv {s : State} (r : Response) (h : s.Inv) : (s.respond r).Inv :=
  ⟨h.valid, ⟨h.sound.empty, h.sound.sized, h.sound.fits, h.sound.inRange, h.sound.counted⟩,
    ⟨h.formed.memWf, h.formed.bitsWf, h.formed.memRange, h.formed.held⟩⟩

theorem input_inv {s : State} (l : List HostEvent) (h : s.Inv) : State.Inv { s with input := l } :=
  ⟨h.valid, ⟨h.sound.empty, h.sound.sized, h.sound.fits, h.sound.inRange, h.sound.counted⟩,
    ⟨h.formed.memWf, h.formed.bitsWf, h.formed.memRange, h.formed.held⟩⟩

/-- Nor of the flags. -/
theorem setEvent_inv {s : State} (f : BitVec 3) (h : s.Inv) : (s.setEvent f).Inv :=
  ⟨h.valid, ⟨h.sound.empty, h.sound.sized, h.sound.fits, h.sound.inRange, h.sound.counted⟩,
    ⟨h.formed.memWf, h.formed.bitsWf, h.formed.memRange, h.formed.held⟩⟩

theorem emptied_inv {s : State} (h : s.Inv) : s.emptied.Inv where
  valid := h.valid
  sound := by
    refine ⟨fun _ => ⟨rfl, rfl, rfl, fun _ => rfl⟩, ?_, ?_, ?_, rfl⟩
    · intro h
      cases h
    · intro h
      cases h
    · intro slot h
      cases h
  formed := by
    refine ⟨h.formed.memWf, .nil, h.formed.memRange, ?_⟩
    intro slot h
    cases h

/-- The packet count of an admitted file fits the 16-bit register. -/
theorem opened_count {s : State} {z : U32} (hv : s.cfg.valid) (hf : packetCount z + 1 ≤ s.cfg.storeDepth) :
    (s.opened z).expectedCount.toNat = packetCount z := by
  have := hv.2.1
  rw [opened_expectedCount, BitVec.toNat_ofNat, Nat.mod_eq_of_lt (by omega)]

theorem opened_inv {s : State} {z : U32} (h : s.Inv) (hf : packetCount z + 1 ≤ s.cfg.storeDepth) :
    (s.opened z).Inv where
  valid := h.valid
  sound := by
    have hc := opened_count h.valid hf
    refine ⟨?_, fun _ => hc, fun _ => by rw [hc]; exact hf, ?_, ?_⟩
    · intro h
      cases h
    · intro slot h
      cases h
    · have hb : ∀ x, (s.opened z).bit x = false := fun _ => rfl
      have : (slotIds (s.opened z).expectedCount.toNat).filter (s.opened z).bit = [] := by
        simp [List.filter_eq_nil_iff, hb]
      rw [State.setBits, this]
      rfl
  formed := by
    refine ⟨h.formed.memWf, .nil, h.formed.memRange, ?_⟩
    intro slot h
    cases h

/-- A slot of the session whose bit is 0 leaves the counter below `N`. -/
theorem storedCount_lt {s : State} (h : s.Inv) {slot : Nat} (h1 : 1 ≤ slot) (h2 : slot ≤ s.expectedCount.toNat)
    (hb : s.bit slot = false) : s.storedCount.toNat < s.expectedCount.toNat := by
  have hm := slotIds_missing_add_set s.bit s.expectedCount.toNat
  have hx : slot ∈ (slotIds s.expectedCount.toNat).filter fun x => !s.bit x := by
    simp [mem_slotIds, hb, h1, h2]
  have := List.length_pos_of_mem hx
  rw [h.sound.counted, State.setBits]
  omega

/-- The counter after a store, as a number. -/
theorem storeSlot_count {s : State} (h : s.Inv) {slot : Nat} {p : List Byte} (h1 : 1 ≤ slot)
    (h2 : slot ≤ s.expectedCount.toNat) :
    (s.storeSlot slot p).storedCount.toNat = s.storedCount.toNat + if s.bit slot then 0 else 1 := by
  rw [storeSlot_storedCount]
  cases hb : s.bit slot with
  | true => simp
  | false =>
    have := storedCount_lt h h1 h2 hb
    have := s.expectedCount.isLt
    simp only [Bool.false_eq_true, if_false, BitVec.toNat_add]
    rw [show BitVec.toNat (1 : BitVec 16) = 1 from rfl]
    omega

theorem storeSlot_inv {s : State} (h : s.Inv) {slot : Nat} {p : List Byte} (ha : s.allocated = true)
    (h1 : 1 ≤ slot) (h2 : slot ≤ s.expectedCount.toNat) (hp : p.length = 29) : (s.storeSlot slot p).Inv where
  valid := h.valid
  sound := by
    refine ⟨?_, h.sound.sized, h.sound.fits, ?_, ?_⟩
    · intro hn
      rw [storeSlot_allocated, ha] at hn
      cases hn
    · intro x hx
      rw [storeSlot_bit, Bool.or_eq_true, beq_iff_eq] at hx
      rcases hx with rfl | hx
      · exact ⟨h1, h2⟩
      · exact h.sound.inRange x hx
    · rw [storeSlot_count h h1 h2, h.sound.counted]
      have hbit : (s.storeSlot slot p).bit = fun x => x == slot || s.bit x := funext (storeSlot_bit s slot p)
      simp only [State.setBits, hbit, storeSlot_expectedCount]
      cases hb : s.bit slot with
      | false => exact (slotIds_count_insert _ _ _ h1 h2 hb).symm
      | true =>
        have : (fun x => x == slot || s.bit x) = s.bit := by
          funext x
          by_cases hx : x = slot
          · simp [hx, hb]
          · simp [hx]
        simp [this]
  formed := by
    refine ⟨memory_wf_writeBytes _ _ _ h.formed.memWf, bitmap_wf_set _ _ h.formed.bitsWf, ?_, ?_⟩
    · intro cell hc
      have hd := h.sound.fits ha
      rcases memory_mem_writeBytes hc with hc | hc
      · rw [hp] at hc
        simp only [slotAddr, payloadWidth, storeSlot_cfg] at hc ⊢
        omega
      · exact h.formed.memRange cell hc
    · intro x hx k hk
      rw [storeSlot_bit, Bool.or_eq_true, beq_iff_eq] at hx
      simp only [slotAddr, payloadWidth] at hk ⊢
      by_cases hxs : x = slot
      · subst hxs
        rw [storeSlot_read s x hp, if_pos (by omega)]
        have : 29 * x + k - 29 * x = k := by omega
        rw [this, List.getElem?_eq_getElem (by omega)]
        rfl
      · rw [storeSlot_read s slot hp, if_neg (by omega)]
        exact h.formed.held x (hx.resolve_left hxs) k hk

/-- A sound open state has its slots below the depth of the store. -/
theorem inv_depth {s : State} (h : s.Inv) (ha : s.allocated = true) {x : Nat} (hx : x ≤ s.expectedCount.toNat) :
    x < s.cfg.storeDepth := by
  have := h.sound.fits ha
  omega

/-- A sound state can read a slot whose bit is 1. -/
theorem inv_readSlot {s : State} (h : s.Inv) {x : Nat} (hb : s.bit x = true) : ∃ p, s.readSlot x = some p :=
  memory_readBytes_isSome _ _ _ (h.formed.held x hb)

/-- The slots `1..N` of a sound state hold the file: `29*(N-1) + last_len = FILE_SIZE` (10_state.md R29). -/
theorem inv_lastLen {s : State} (h : s.Inv) (ha : s.allocated = true) (hn : 1 ≤ s.expectedCount.toNat) :
    29 * (s.expectedCount.toNat - 1) + lastLen s.fileSize s.expectedCount = s.fileSize.toNat
    ∧ 1 ≤ lastLen s.fileSize s.expectedCount ∧ lastLen s.fileSize s.expectedCount ≤ 29 := by
  have hs := h.sound.sized ha
  simp only [packetCount, payloadWidth] at hs
  simp only [lastLen, payloadWidth]
  rw [if_neg (by omega)]
  omega

/-- How much `ASSEMBLE h` takes from its last slot is at most the slot. -/
theorem inv_assembleTail {s : State} (h : s.Inv) (ha : s.allocated = true) {c : Nat} (h1 : 1 ≤ c) :
    1 ≤ assembleTail s c ∧ assembleTail s c ≤ 29 := by
  simp only [assembleTail, payloadWidth]
  split
  · rename_i hc
    exact (inv_lastLen h ha (by omega)).2
  · omega

/-- The run of bytes `ASSEMBLE` reads is held when the bits of its slots are 1. -/
theorem inv_assemble_run {s : State} (h : s.Inv) {c n : Nat} (hb : ∀ x, 1 ≤ x → x ≤ c → s.bit x = true)
    (hn : n ≤ 29 * c) : ∃ l, Memory.readBytes s.mem (slotAddr 1) n = some l := by
  refine memory_readBytes_isSome _ _ _ fun k hk => ?_
  have := h.formed.held (1 + k / 29) (hb _ (by omega) (by omega)) (k % 29) (Nat.mod_lt _ (by decide))
  simp only [slotAddr, payloadWidth] at this ⊢
  have e : 29 * (1 + k / 29) + k % 29 = 29 * 1 + k := by omega
  rwa [e] at this

/-- The condition of `ASSEMBLE` over a range is that every bit in it is 1. -/
theorem slotIds_all_bit (s : State) (c : Nat) :
    (slotIds c).all s.bit = true ↔ ∀ x, 1 ≤ x → x ≤ c → s.bit x = true := by
  simp only [List.all_eq_true, mem_slotIds]
  exact ⟨fun h x h1 h2 => h x ⟨h1, h2⟩, fun h x hx => h x hx.1 hx.2⟩

end Sys2Proof.Machine
end

