-- ==== Sys2Proof/Tests/Slice0.lean ====
section
/-! SUPPORT. The model's own tests: ill-formed terms refused, words written out from the spec decoded, one step per instruction
against spec 95_test_vectors.md, and a witness for the hypotheses of every statement. -/

open Sys2Proof Sys2Proof.Machine Sys2Proof.Claims

namespace Sys2Proof.Tests

/-! ## Helpers -/

/-- Bytes from numbers. -/
def bytes (l : List Nat) : List Byte := l.map (BitVec.ofNat 8)

/-- The bytes `a, a+1, ...` of `file100`. -/
def run (a n : Nat) : List Byte := (List.range n).map fun i => BitVec.ofNat 8 (a + i)

/-- The operation ends in a next state of which `p` holds. -/
def ends (o : Result) (p : State → Bool) : Bool :=
  match o with
  | .next t => p t
  | .fault _ => false
  | .refused _ => false

/-- The operation ends with this response. -/
def gives (o : Result) (r : Response) : Bool := ends o fun t => t.response == r

/-- The registers and flags as `STAT` shows them. -/
def tuple (s : State) : List Nat :=
  [if s.allocated then 1 else 0, s.fileSize.toNat, s.expectedCount.toNat, s.storedCount.toNat,
   lastLen s.fileSize s.expectedCount, s.events.toNat]

/-! ## The frames of the `file100` session (95_test_vectors.md), byte by byte -/

def s100 : List Byte := bytes [0x00, 0x01, 0x64] ++ zeros 29
def d1 : List Byte := bytes [0x01, 0x00] ++ run 0x00 29 ++ bytes [0xC6]
def d2 : List Byte := bytes [0x02, 0x00] ++ run 0x1D 29 ++ bytes [0x3F]
def d4 : List Byte := bytes [0x04, 0x00] ++ run 0x57 13 ++ zeros 16 ++ bytes [0x99]
def e4 : List Byte := bytes [0x00, 0x09, 0x04] ++ zeros 29
def rq2 : List Byte := bytes [0x00, 0x02, 0x01, 0x01, 0x00, 0x02] ++ zeros 26
def ac : List Byte := bytes [0x00, 0x04] ++ zeros 30
def pe : List Byte := bytes [0x00, 0x08] ++ zeros 30
/-- `D2` with a damaged low nibble (V-codec 30). -/
def bad2 : List Byte := bytes [0x02, 0x00, 0x1C] ++ run 0x1E 28 ++ bytes [0x3F]

/-! ## States -/

/-- After `ALLOC 100`: `N = 4`. -/
def open100 : State := State.reset.opened 100
/-- `open100` with packet 2 stored. -/
def holding2 : State := open100.storeSlot 2 (run 0x1D 29)
/-- `open100` of a block with the `DROP` policy. -/
def dropping : State :=
  State.opened { State.reset with cfg := { Config.default with policy := .drop } } 100
/-- After `ALLOC 30`: `N = 2`. -/
def open30 : State := State.reset.opened 30
/-- A file of 30 bytes. -/
def file30 : List Byte := run 0 30
/-- `open30` with both packets of `file30` stored. -/
def full30 : State := (open30.storeSlot 1 (pad29 (chunk file30 1))).storeSlot 2 (pad29 (chunk file30 2))
/-- After `ALLOC 7396`: `N = 256`. -/
def open7396 : State := State.reset.opened 7396

theorem open100_inv : open100.Inv := opened_inv reset_inv (by decide)
theorem holding2_inv : holding2.Inv := storeSlot_inv open100_inv rfl (by decide) (by decide) (by decide)
theorem dropping_inv : dropping.Inv := opened_inv (built_inv (by decide)) (by decide)
theorem open30_inv : open30.Inv := opened_inv reset_inv (by decide)
theorem full30_inv : full30.Inv :=
  storeSlot_inv (storeSlot_inv open30_inv rfl (by decide) (by decide) (by decide)) rfl (by decide) (by decide) (by decide)
theorem open7396_inv : open7396.Inv := opened_inv reset_inv (by decide)

/-! ## Ill-formed terms are refused (60_exceptions.md R198, 30_encoding.md R72, R85) -/

theorem test_wf_data_id : Instr.wf Tags.default (.frameData 256 (zeros 29) 0) = false := by decide
theorem test_wf_data_payload : Instr.wf Tags.default (.frameData 1 (zeros 28) 0) = false := by decide
theorem test_wf_request : Instr.wf Tags.default (.frameRetransmitRequest 0 (List.replicate 14 1)) = false := by decide
theorem test_wf_junk : Instr.wf Tags.default (.frameJunk 1) = false ∧ Instr.wf Tags.default (.frameJunk 4) = false
    ∧ Instr.wf Tags.default (.frameJunk 8) = false ∧ Instr.wf Tags.default (.frameJunk 9) = false := by decide
theorem test_wf_encData : Instr.wf Tags.default (.encData 1 (zeros 30)) = false := by decide
theorem test_wf_encRreq : Instr.wf Tags.default (.encRreq 0 (List.replicate 14 1)) = false := by decide
theorem test_wf_decode : Instr.wf Tags.default (.decode (zeros 31)) = false := by decide
theorem test_wf_fletcher8 : Instr.wf Tags.default (.fletcher8 (zeros 33)) = false := by decide
theorem test_wf_verify : Instr.wf Tags.default (.verify (zeros 33)) = false := by decide
theorem test_wf_put : Instr.wf Tags.default (.put 1 (zeros 30)) = false := by decide
theorem test_wf_txData : Instr.wf Tags.default (.txData 1 (zeros 30)) = false := by decide
theorem test_wf_rxFrame : Instr.wf Tags.default (.rxFrame []) = false := by decide
theorem test_wf_word : PortWord.wf (.frame (zeros 31)) = false
    ∧ PortWord.wf (.command { op := 0x20#8, d := zeros 33 }) = false := by decide

/-! ## Words written out from the spec decode -/

/-- The frames of 30_encoding.md R72 to R80, R85, R87. -/
theorem test_decode_frames :
    decode Tags.default (.frame d1) = .instr (.frameData 1 (run 0 29) 0xC6#8)
    ∧ decode Tags.default (.frame s100) = .instr (.frameStart 100)
    ∧ decode Tags.default (.frame rq2) = .instr (.frameRetransmitRequest 1 [2])
    ∧ decode Tags.default (.frame ac) = .instr .frameAllClear
    ∧ decode Tags.default (.frame pe) = .instr .framePrematureEnd
    ∧ decode Tags.default (.frame e4) = .instr (.frameEnd 4)
    ∧ decode Tags.default (.frame (bytes [0x00, 0x03] ++ zeros 30)) = .instr (.frameJunk 3)
    ∧ decode Tags.default (.frame (bytes [0x00, 0x02, 0x0E] ++ zeros 29)) = .instr (.frameJunk 2)
    ∧ decode Tags.default (.frame (zeros 31)) = .reject .badLen := by decide

/-- The codec commands of R91: `op a b n d`. -/
theorem test_decode_codec :
    decode Tags.default (.command ⟨0x10#8, 5#32, 0#16, 1#8, [0x41#8]⟩) = .instr (.encData 5 [0x41#8])
    ∧ decode Tags.default (.command ⟨0x11#8, 0x64#32, 0#16, 0#8, []⟩) = .instr (.encStart 100)
    ∧ decode Tags.default (.command ⟨0x12#8, 0#32, 0x102#16, 2#8, bytes [3, 0, 4, 1]⟩) = .instr (.encRreq 0x102 [3, 0x104])
    ∧ decode Tags.default (.command ⟨0x14#8, 0#32, 0#16, 0#8, []⟩) = .instr .encAllclear
    ∧ decode Tags.default (.command ⟨0x18#8, 0#32, 0#16, 0#8, []⟩) = .instr .encPremend
    ∧ decode Tags.default (.command ⟨0x19#8, 4#32, 0#16, 0#8, []⟩) = .instr (.encEnd 4)
    ∧ decode Tags.default (.command ⟨0x1F#8, 0#32, 0#16, 0x20#8, rq2⟩) = .instr (.decode rq2) := by decide

/-- The checksum commands. -/
theorem test_decode_checksum :
    decode Tags.default (.command ⟨0x20#8, 0#32, 0#16, 2#8, bytes [1, 2]⟩) = .instr (.fletcher8 (bytes [1, 2]))
    ∧ decode Tags.default (.command ⟨0x21#8, 0#32, 0#16, 0x20#8, d1⟩) = .instr (.verify d1) := by decide

/-- The store commands. -/
theorem test_decode_store :
    decode Tags.default (.command ⟨0x30#8, 0x64#32, 0#16, 0#8, []⟩) = .instr (.alloc 100)
    ∧ decode Tags.default (.command ⟨0x31#8, 0#32, 0#16, 0#8, []⟩) = .instr .free
    ∧ decode Tags.default (.command ⟨0x32#8, 4#32, 0#16, 1#8, [0xFF#8]⟩) = .instr (.put 4 [0xFF#8])
    ∧ decode Tags.default (.command ⟨0x33#8, 4#32, 0#16, 0#8, []⟩) = .instr (.get 4)
    ∧ decode Tags.default (.command ⟨0x34#8, 0xFFFF#32, 0#16, 0#8, []⟩) = .instr (.test 0xFFFF)
    ∧ decode Tags.default (.command ⟨0x35#8, 4#32, 0#16, 0#8, []⟩) = .instr (.missing 4)
    ∧ decode Tags.default (.command ⟨0x36#8, 4#32, 0#16, 0#8, []⟩) = .instr (.assemble 4)
    ∧ decode Tags.default (.command ⟨0x37#8, 0#32, 0#16, 0#8, []⟩) = .instr .stat := by decide

/-- The data-path commands. -/
theorem test_decode_datapath :
    decode Tags.default (.command ⟨0x40#8, 0x100#32, 0#16, 1#8, [0xE3#8]⟩) = .instr (.txData 256 [0xE3#8])
    ∧ decode Tags.default (.command ⟨0x41#8, 2#32, 0#16, 0#8, []⟩) = .instr (.retx 2)
    ∧ decode Tags.default (.command ⟨0x42#8, 0#32, 0#16, 0x20#8, s100⟩) = .instr (.rxFrame s100) := by decide

/-- V-err: what `BAD_OP` refuses, beside the nearest accepted input. -/
theorem test_decode_badOp :
    (∀ op ∈ [0x13#8, 0x1A#8, 0x38#8, 0x43#8, 0x00#8, 0xFF#8],
      decode Tags.default (.command { op := op }) = .reject .badOp)
    ∧ decode Tags.default (.command { op := 0x32#8, a := 0x00010001#32 }) = .reject .badOp
    ∧ decode Tags.default (.command { op := 0x32#8, a := 0x00000001#32 }) = .instr (.put 1 []) := by decide

/-- Table words: a command's op of 8 bits, a frame's two leading bytes, the row of the op-less frame. -/
theorem test_tableWords :
    decodeTableWord 8 0x37 = some .stat
    ∧ decodeTableWord 16 0x0400 = some .frameAllClear
    ∧ decodeTableWord 256 (0x64 * 65536 + 0x0100) = some (.frameStart 100)
    ∧ decodeTableWord 8 0 = some (.frameJunk 0) := by decide

/-- A placed table word is run by the next step. -/
theorem test_withFetchWord :
    step (State.reset.withFetchWord 8 0x37) = exec .stat State.reset
    ∧ step (State.reset.withFetchWord 16 0x0900) = exec (.frameEnd 0) State.reset := ⟨rfl, rfl⟩

/-! ## Frame rows and codec (V-codec, V-alias) -/

theorem test_frameData : gives (exec (.frameData 2 (run 0x1D 29) 0x3F#8) State.reset)
    { pkt := some (.data 2 (run 0x1D 29) 0x3F#8 true) } = true := by decide
theorem test_frameStart : gives (exec (.frameStart 100) open100) { pkt := some (.start 100) } = true := by decide
theorem test_frameRetransmitRequest : gives (exec (.frameRetransmitRequest 258 [3]) State.reset)
    { pkt := some (.retransmitRequest 258 [3]) } = true := by decide
theorem test_frameAllClear : gives (exec .frameAllClear State.reset) { pkt := some .allClear } = true := by decide
theorem test_framePrematureEnd : gives (exec .framePrematureEnd State.reset) { pkt := some .prematureEnd } = true := by
  decide
theorem test_frameEnd : gives (exec (.frameEnd 256) State.reset) { pkt := some (.endPacket 256) } = true := by decide
theorem test_frameJunk : gives (exec (.frameJunk 3) State.reset) { pkt := some (.junk 3) } = true := by decide
theorem test_encData_pads : gives (exec (.encData 4 (run 0x57 13)) State.reset) { q := d4 } = true := by decide
theorem test_encData_full : gives (exec (.encData 0xFFFF (List.replicate 29 0xFF#8)) State.reset)
    { q := List.replicate 31 0xFF#8 ++ [0xD3#8] } = true := by decide
theorem test_encStart : gives (exec (.encStart 0x12345678) State.reset)
    { q := bytes [0x00, 0x01, 0x78, 0x56, 0x34, 0x12] ++ zeros 26 } = true := by decide
theorem test_encRreq : gives (exec (.encRreq 0x0102 [3, 4, 5, 6, 7, 8, 9, 10, 11, 12, 13, 14, 15]) State.reset)
    { q := bytes [0x00, 0x02, 0x0D, 0x02, 0x01, 3, 0, 4, 0, 5, 0, 6, 0, 7, 0, 8, 0, 9, 0, 10, 0, 11, 0, 12, 0, 13, 0,
        14, 0, 15, 0, 0] } = true := by decide
theorem test_encAllclear : gives (exec .encAllclear State.reset) { q := ac } = true := by decide
theorem test_encPremend : gives (exec .encPremend State.reset) { q := pe } = true := by decide
theorem test_encEnd : gives (exec (.encEnd 0x0100) State.reset) { q := bytes [0x00, 0x09, 0x00, 0x01] ++ zeros 28 } = true := by
  decide
theorem test_decode_damaged : gives (exec (.decode bad2) State.reset)
    { pkt := some (.data 2 (0x1C#8 :: run 0x1E 28) 0x3F#8 false) } = true := by decide
theorem test_decode_alias : gives (exec (.decode (bytes [0, 2, 2, 0x34, 0x12, 5, 0, 6] ++ zeros 23 ++ [0x23#8])) State.reset)
    { pkt := some (.retransmitRequest 0x1234 [5, 6]) } = true := by decide

/-! ## Checksum (V-ck) -/

theorem test_fletcher8_order : gives (exec (.fletcher8 (bytes [0x61, 0x62, 0x63, 0x64, 0x65])) State.reset) { r := 0x3F } = true
    ∧ gives (exec (.fletcher8 (bytes [0x65, 0x64, 0x63, 0x62, 0x61])) State.reset) { r := 0x7F } = true := by decide
theorem test_fletcher8_long : gives (exec (.fletcher8 (List.replicate 29 0xFF#8)) State.reset) { r := 0xD3 } = true
    ∧ gives (exec (.fletcher8 (zeros 33)) State.reset) { status := .badLen } = true := by decide
theorem test_verify : gives (exec (.verify d4) State.reset) { r := 1 } = true
    ∧ gives (exec (.verify bad2) State.reset) { r := 0 } = true := by decide
theorem test_verify_control : gives (exec (.verify ac) State.reset) { r := 1 } = true
    ∧ gives (exec (.verify s100) State.reset) { r := 0 } = true := by decide

/-! ## Store (V-store) -/

theorem test_alloc : ends (exec (.alloc 58) State.reset) (fun t => tuple t == [1, 58, 2, 0, 29, 0] && t.response == { r := 2 })
    = true := by decide
theorem test_alloc_limit : ends (exec (.alloc 1900515) State.reset) (fun t => tuple t == [1, 1900515, 65535, 0, 29, 0]) = true
    ∧ gives (exec (.alloc 1900516) State.reset) { status := .tooLarge } = true
    ∧ gives (exec (.alloc 4294967295) open100) { status := .busy } = true := by decide
theorem test_free : ends (exec .free (holding2.setEvent junkSeen))
    (fun t => tuple t == [0, 0, 0, 0, 0, 0] && !t.bit 2 && t.mem == holding2.mem) = true := by decide
theorem test_put : ends (exec (.put 4 (run 0x57 13)) open100)
    (fun t => tuple t == [1, 100, 4, 1, 13, 0] && t.readSlot 4 == some (run 0x57 13 ++ zeros 16)) = true := by decide
theorem test_put_again : ends (exec (.put 2 [0xFF#8]) holding2)
    (fun t => tuple t == [1, 100, 4, 1, 13, 0] && t.readSlot 2 == some (0xFF#8 :: zeros 28)) = true
    ∧ gives (exec (.put 9 (zeros 30)) State.reset) { status := .badLen } = true := by decide
theorem test_get : gives (exec (.get 2) holding2) { q := run 0x1D 29 } = true
    ∧ gives (exec (.get 9) holding2) { status := .range } = true := by decide
theorem test_test : gives (exec (.test 2) holding2) { r := 1 } = true ∧ gives (exec (.test 1) holding2) { r := 0 } = true
    ∧ gives (exec (.test 0) holding2) { status := .range } = true := by decide
theorem test_missing : gives (exec (.missing 4) holding2) { r := 3, q := bytes [1, 0, 3, 0, 4, 0] } = true
    ∧ gives (exec (.missing 0) holding2) {} = true := by decide
theorem test_assemble : gives (exec (.assemble 2) full30) { r := 30, q := run 0 30 } = true
    ∧ gives (exec (.assemble 1) full30) { r := 29, q := run 0 29 } = true := by decide
theorem test_assemble_gap : gives (exec (.assemble 4) holding2) { status := .incomplete } = true
    ∧ gives (exec (.assemble 0) open100) {} = true := by decide
theorem test_stat : gives (exec .stat holding2) { q := bytes [0x01, 0x64, 0, 0, 0, 0x04, 0, 0x01, 0, 0x0D, 0] } = true := by
  decide

/-! ## Data path (V-dp) -/

theorem test_txData : ends (exec (.txData 4 (run 0x57 13)) open100)
    (fun t => tuple t == [1, 100, 4, 1, 13, 0] && t.response == { q := d4 }) = true := by decide
theorem test_txData_refused : gives (exec (.txData 5 [0]) open100) { status := .range } = true := by decide
theorem test_retx : gives (exec (.retx 2) holding2) { q := d2 } = true
    ∧ gives (exec (.retx 1) holding2) { status := .unwritten } = true := by decide
theorem test_rxFrame_inform : ends (exec (.rxFrame bad2) open100)
    (fun t => tuple t == [1, 100, 4, 1, 13, 4] && t.response.outcome == some .stored) = true
    ∧ ends (exec (.rxFrame d2) holding2)
      (fun t => tuple t == [1, 100, 4, 1, 13, 2] && t.response.outcome == some .duplicate) = true := by decide
theorem test_rxFrame_drop : ends (exec (.rxFrame bad2) dropping)
    (fun t => tuple t == [1, 100, 4, 0, 13, 4] && t.response.outcome == some .cksumDropped && !t.bit 2) = true
    ∧ ends (exec (.rxFrame (bytes [0, 3] ++ zeros 30)) State.reset)
      (fun t => tuple t == [0, 0, 0, 0, 0, 1] && t.response.outcome == some .junk) = true := by decide

/-- The port shows the codes of 60_exceptions.md R191 and R200, and 0 where a field is not used (30_encoding.md R90). -/
theorem test_port :
    responsePort { status := .badOp } = { status := 8#8, outcome := 0, r := 0, pkt := {}, q := [] }
    ∧ (responsePort { outcome := some .cksumDropped, pkt := some (.endPacket 4) }).outcome = 4#8
    ∧ (responsePort { pkt := some (.junk 3) }).pkt = { kind := 255#8, tag := 3#8 } := by decide

/-! ## Witnesses: a state and operands that meet the hypotheses of each statement, each clause at a boundary -/

/-- Every slot of `full30` is stored and holds its part of the file. -/
theorem full30_slots (x : Nat) (h1 : 1 ≤ x) (h2 : x ≤ full30.expectedCount.toNat) :
    full30.bit x = true ∧ full30.readSlot x = some (pad29 (chunk file30 x)) := by
  have h2 : x ≤ 2 := h2
  have : x = 1 ∨ x = 2 := by omega
  rcases this with rfl | rfl
  · decide
  · decide

/-- `open100` with a host event before it. -/
def facing (e : HostEvent) : State := { open100 with input := [e] }

theorem facing_inv (e : HostEvent) : (facing e).Inv := input_inv _ open100_inv

theorem witness_ResetLeavesTheEmptyState : (facing .reset).input = .reset :: [] := rfl

theorem witness_StepRunsTheDecodedInstruction :
    ((facing (.issue (.command { op := 0x37#8 }))).input = .issue (.command { op := 0x37#8 }) :: []
      ∧ decode open100.cfg.tags (.command { op := 0x37#8 }) = .instr .stat)
    ∧ ((facing (.issue (.frame []))).input = .issue (.frame []) :: []
      ∧ decode open100.cfg.tags (.frame []) = .reject .badLen)
    ∧ open100.input = [] := by decide

/-- An unlisted code, and a 16-bit operand at 65536; at 65535 neither holds. -/
theorem witness_BadOpIsForUnreadableCommands :
    (facing (.issue (.command { op := 0x43#8 }))).input = .issue (.command { op := 0x43#8 }) :: []
    ∧ 0x43#8 ∉ scalarCodes ∧ 0x43#8 ∉ otherCodes
    ∧ 0x33#8 ∈ scalarCodes ∧ 65536 ≤ (0x10000#32).toNat ∧ ¬ 65536 ≤ (0xFFFF#32).toNat := by decide

theorem witness_DecodeUndoesEncode :
    Tags.default.distinct ∧ Instr.wf Tags.default (.frameData 255 (zeros 29) 0) = true
    ∧ Instr.wf Tags.default (.encRreq 0xFFFF (List.replicate 13 0xFFFF)) = true
    ∧ Instr.wf Tags.default (.fletcher8 (zeros 32)) = true := by decide

/-- One frame for each clause; the count is 14 and 13 in the two request clauses. -/
theorem witness_DecodeClassifiesEveryFrame :
    State.reset.cfg.tags.distinct ∧ (zeros 31).length ≠ 32
    ∧ (d1.length = 32 ∧ num d1 0 ≠ 0)
    ∧ (s100.length = 32 ∧ num s100 0 = 0 ∧ s100.getD 1 0 = State.reset.cfg.tags.start)
    ∧ (num (bytes [0, 2, 14] ++ zeros 29) 0 = 0
      ∧ (bytes [0, 2, 14] ++ zeros 29).getD 1 0 = State.reset.cfg.tags.retransmitRequest
      ∧ num (bytes [0, 2, 14] ++ zeros 29) 2 > 13)
    ∧ (num (bytes [0, 2, 13] ++ zeros 29) 0 = 0
      ∧ (bytes [0, 2, 13] ++ zeros 29).getD 1 0 = State.reset.cfg.tags.retransmitRequest
      ∧ num (bytes [0, 2, 13] ++ zeros 29) 2 ≤ 13)
    ∧ (ac.length = 32 ∧ num ac 0 = 0 ∧ ac.getD 1 0 = State.reset.cfg.tags.allClear)
    ∧ (pe.length = 32 ∧ num pe 0 = 0 ∧ pe.getD 1 0 = State.reset.cfg.tags.prematureEnd)
    ∧ (e4.length = 32 ∧ num e4 0 = 0 ∧ e4.getD 1 0 = State.reset.cfg.tags.endTag)
    ∧ (num (zeros 32) 0 = 0 ∧ (zeros 32).getD 1 0 ≠ State.reset.cfg.tags.start
      ∧ (zeros 32).getD 1 0 ≠ State.reset.cfg.tags.retransmitRequest
      ∧ (zeros 32).getD 1 0 ≠ State.reset.cfg.tags.allClear
      ∧ (zeros 32).getD 1 0 ≠ State.reset.cfg.tags.prematureEnd
      ∧ (zeros 32).getD 1 0 ≠ State.reset.cfg.tags.endTag) := by decide

/-- Every frame row is a well-formed instruction with a frame. -/
theorem witness_FrameRowsAnswerAsDecodeOfTheirFrame :
    open100.cfg.tags.distinct
    ∧ ∀ i ∈ [Instr.frameData 1 (run 0 29) 0xC6#8, .frameStart 100, .frameRetransmitRequest 1 [2], .frameAllClear,
        .framePrematureEnd, .frameEnd 4, .frameJunk 2],
      i.wf open100.cfg.tags = true ∧ (match encode open100.cfg.tags i with | .frame _ => true | .command _ => false) = true := by
  decide

theorem witness_EncDataPacksTheDataFrame : (run 0 29).length ≤ 29 ∧ 29 < (run 0 30).length := by decide

theorem witness_EncRreqPacksTheRequest :
    (List.replicate 13 (0xFFFF : U16)).length ≤ 13 ∧ 13 < (List.replicate 14 (0xFFFF : U16)).length := by decide

theorem witness_EveryVariantRoundTrips :
    State.reset.cfg.tags.distinct ∧ (0xFFFF : U16).toNat % 256 ≠ 0 ∧ (run 0 29).length ≤ 29
    ∧ (List.replicate 13 (0 : U16)).length ≤ 13 := by decide

/-- The ids of V-alias, one for each clause; a request of 13 ids has a last one. -/
theorem witness_ZeroLowByteIdsDecodeAsControl :
    State.reset.cfg.tags.distinct ∧ (bytes [0x64]).length ≤ 29
    ∧ ((256 : U16).toNat % 256 = 0 ∧ (512 : U16).toNat % 256 = 0 ∧ (1024 : U16).toNat % 256 = 0
      ∧ (2048 : U16).toNat % 256 = 0 ∧ (2304 : U16).toNat % 256 = 0)
    ∧ (256 : U16).toNat / 256 = State.reset.cfg.tags.start.toNat
    ∧ ((512 : U16).toNat / 256 = State.reset.cfg.tags.retransmitRequest.toNat
      ∧ (padded (bytes [14]) 0).toNat > 13 ∧ (padded (bytes [13]) 0).toNat ≤ 13 ∧ 12 < (padded (bytes [13]) 0).toNat)
    ∧ (1024 : U16).toNat / 256 = State.reset.cfg.tags.allClear.toNat
    ∧ (2048 : U16).toNat / 256 = State.reset.cfg.tags.prematureEnd.toNat
    ∧ (2304 : U16).toNat / 256 = State.reset.cfg.tags.endTag.toNat
    ∧ ((768 : U16).toNat % 256 = 0
      ∧ (768 : U16).toNat / 256 ∉ [State.reset.cfg.tags.start.toNat, State.reset.cfg.tags.retransmitRequest.toNat,
          State.reset.cfg.tags.allClear.toNat, State.reset.cfg.tags.prematureEnd.toNat,
          State.reset.cfg.tags.endTag.toNat]) :=
  ⟨by decide, by decide, by decide, by decide, by decide, by decide, by decide, by decide, by decide⟩

/-- V-ck 3 and 18; `D2` and V-codec 31, which differs in the high nibble of `F[2]` only. -/
theorem witness_FletcherIgnoresHighNibbles :
    ((bytes [0x01, 0x02]).length = (bytes [0xA1, 0xB2]).length
      ∧ ∀ i, num (bytes [0x01, 0x02]) i % 16 = num (bytes [0xA1, 0xB2]) i % 16)
    ∧ (d2.length = 32 ∧ (d2.set 2 0x2D#8).length = 32 ∧ d2.getD 31 0 = (d2.set 2 0x2D#8).getD 31 0
      ∧ ∀ i, i < 31 → 2 ≤ i → num d2 i % 16 = num (d2.set 2 0x2D#8) i % 16) := by
  refine ⟨⟨rfl, fun i => ?_⟩, by decide⟩
  match i with
  | 0 => rfl
  | 1 => rfl
  | _ + 2 => rfl

theorem witness_Fletcher8AnswersTheChecksum : (zeros 32).length ≤ 32 ∧ 32 < (zeros 33).length := by decide

theorem witness_VerifyComparesTheChecksumByte :
    d1.length = 32 ∧ num d1 0 ≠ 0 ∧ (zeros 31).length ≠ 32 := by decide

/-- The largest admitted file and the nearest refused one (V-store 13, 14). -/
theorem witness_AllocOpensTheStore :
    State.reset.cfg.valid ∧ open100.allocated = true
    ∧ (State.reset.allocated = false ∧ State.reset.cfg.storeDepth < ((1900516 : U32).toNat + 28) / 29 + 1)
    ∧ ((1900515 : U32).toNat + 28) / 29 + 1 ≤ State.reset.cfg.storeDepth := by decide

theorem witness_FreeEmptiesTheBlock : State.reset.Inv ∧ State.reset.allocated = false ∧ State.reset.events = 0 :=
  ⟨reset_inv, rfl, rfl⟩

/-- A payload of 29 and of 30 bytes, the slots 0, 1, 4 and 5 of a session of 4 packets. -/
theorem witness_PutStoresThePaddedPayload :
    (run 0 29).length ≤ 29 ∧ 29 < (run 0 30).length ∧ State.reset.Inv ∧ State.reset.allocated = false
    ∧ open100.Inv ∧ open100.allocated = true ∧ (0 : U16).toNat = 0 ∧ open100.expectedCount.toNat < (5 : U16).toNat
    ∧ 1 ≤ (1 : U16).toNat ∧ (4 : U16).toNat ≤ open100.expectedCount.toNat :=
  ⟨by decide, by decide, reset_inv, rfl, open100_inv, rfl, rfl, by decide, by decide, by decide⟩

theorem witness_TxDataStoresAndAnswersTheFrame :
    (run 0 29).length ≤ 29 ∧ 29 < (run 0 30).length ∧ State.reset.Inv ∧ State.reset.allocated = false
    ∧ open100.Inv ∧ open100.allocated = true ∧ (0 : U16).toNat = 0 ∧ open100.expectedCount.toNat < (5 : U16).toNat
    ∧ 1 ≤ (1 : U16).toNat ∧ (4 : U16).toNat ≤ open100.expectedCount.toNat :=
  witness_PutStoresThePaddedPayload

/-- A closed store, the slots 0, 5, 1 (not stored) and 2 (stored). -/
theorem witness_GetAnswersTheStoredSlot :
    State.reset.Inv ∧ State.reset.allocated = false ∧ holding2.Inv ∧ holding2.allocated = true ∧ (0 : U16).toNat = 0
    ∧ holding2.expectedCount.toNat < (5 : U16).toNat
    ∧ (1 ≤ (1 : U16).toNat ∧ (1 : U16).toNat ≤ holding2.expectedCount.toNat ∧ holding2.bit (1 : U16).toNat = false)
    ∧ (1 ≤ (2 : U16).toNat ∧ (2 : U16).toNat ≤ holding2.expectedCount.toNat ∧ holding2.bit (2 : U16).toNat = true) :=
  ⟨reset_inv, rfl, holding2_inv, rfl, rfl, by decide, by decide, by decide⟩

theorem witness_RetxAnswersTheFrameOfTheSlot :
    State.reset.Inv ∧ State.reset.allocated = false ∧ holding2.Inv ∧ holding2.allocated = true ∧ (0 : U16).toNat = 0
    ∧ holding2.expectedCount.toNat < (5 : U16).toNat
    ∧ (1 ≤ (1 : U16).toNat ∧ (1 : U16).toNat ≤ holding2.expectedCount.toNat ∧ holding2.bit (1 : U16).toNat = false)
    ∧ (1 ≤ (2 : U16).toNat ∧ (2 : U16).toNat ≤ holding2.expectedCount.toNat ∧ holding2.bit (2 : U16).toNat = true) :=
  witness_GetAnswersTheStoredSlot

theorem witness_TestAnswersTheBit :
    State.reset.Inv ∧ State.reset.allocated = false ∧ holding2.Inv ∧ holding2.allocated = true ∧ (0 : U16).toNat = 0
    ∧ holding2.expectedCount.toNat < (5 : U16).toNat
    ∧ (1 ≤ (4 : U16).toNat ∧ (4 : U16).toNat ≤ holding2.expectedCount.toNat ∧ holding2.bit (4 : U16).toNat = false)
    ∧ (1 ≤ (2 : U16).toNat ∧ holding2.bit (2 : U16).toNat = true) :=
  ⟨reset_inv, rfl, holding2_inv, rfl, rfl, by decide, by decide, by decide⟩

theorem witness_MissingListsTheUnsetIds :
    State.reset.Inv ∧ State.reset.allocated = false ∧ holding2.Inv ∧ holding2.allocated = true
    ∧ holding2.expectedCount.toNat < (5 : U16).toNat ∧ (4 : U16).toNat ≤ holding2.expectedCount.toNat :=
  ⟨reset_inv, rfl, holding2_inv, rfl, by decide, by decide⟩

/-- A closed store, a highest id past `N`, a gap, and a full store. -/
theorem witness_AssembleConcatenatesTheSlots :
    State.reset.Inv ∧ State.reset.allocated = false ∧ holding2.Inv ∧ holding2.allocated = true
    ∧ holding2.expectedCount.toNat < (5 : U16).toNat
    ∧ ((4 : U16).toNat ≤ holding2.expectedCount.toNat ∧ ∃ x, 1 ≤ x ∧ x ≤ (4 : U16).toNat ∧ holding2.bit x = false)
    ∧ full30.Inv ∧ full30.allocated = true
    ∧ ((2 : U16).toNat ≤ full30.expectedCount.toNat ∧ ∀ x, 1 ≤ x → x ≤ (2 : U16).toNat → full30.bit x = true) :=
  ⟨reset_inv, rfl, holding2_inv, rfl, by decide, ⟨by decide, 1, by decide, by decide, by decide⟩, full30_inv, rfl, by decide,
    fun x h1 h2 => (full30_slots x h1 h2).1⟩

theorem witness_StatAnswersTheRegisters : holding2.Inv := holding2_inv

theorem witness_LastSlotLength : full30.Inv ∧ full30.allocated = true ∧ 1 ≤ full30.expectedCount.toNat :=
  ⟨full30_inv, rfl, by decide⟩

theorem witness_MissingIsEmptyWhenComplete :
    full30.Inv ∧ full30.allocated = true ∧ (2 : U16).toNat ≤ full30.expectedCount.toNat :=
  ⟨full30_inv, rfl, by decide⟩

theorem witness_PutThenGetAnswersThePayload :
    holding2.Inv ∧ holding2.allocated = true ∧ 1 ≤ (4 : U16).toNat ∧ (4 : U16).toNat ≤ holding2.expectedCount.toNat
    ∧ (run 0 29).length ≤ 29 :=
  ⟨holding2_inv, rfl, by decide, by decide, by decide⟩

theorem witness_AssembleReturnsTheFile :
    full30.Inv ∧ full30.allocated = true ∧ full30.fileSize.toNat = file30.length
    ∧ ∀ x, 1 ≤ x → x ≤ full30.expectedCount.toNat →
      full30.bit x = true ∧ full30.readSlot x = some (pad29 (chunk file30 x)) :=
  ⟨full30_inv, rfl, by decide, full30_slots⟩

theorem witness_ReadsHaveNoSideEffect :
    (writesState (.get 2) = false ∧ ∃ t, exec (.get 2) holding2 = .next t)
    ∧ holding2.Inv ∧ ∃ t, exec (.put 2 [0]) holding2 = .next t ∧ t.response.status = .ok :=
  ⟨⟨rfl, _, rfl⟩, holding2_inv, _, rfl, rfl⟩

/-- Each half completes, and is refused, somewhere. -/
theorem witness_CompositesAreTheirPrimitives :
    (∃ t, exec (.put 4 [0]) open100 = .next t ∧ t.response.status = .ok)
    ∧ (∃ t, exec (.put 5 [0]) open100 = .next t ∧ t.response.status ≠ .ok)
    ∧ (∃ t, exec (.get 2) holding2 = .next t ∧ t.response.status = .ok)
    ∧ (∃ t, exec (.get 1) holding2 = .next t ∧ t.response.status ≠ .ok)
    ∧ ∃ t u, exec (.rxFrame d2) holding2 = .next t ∧ exec (.decode d2) holding2 = .next u ∧ t.response.status = .ok :=
  ⟨⟨_, rfl, rfl⟩, ⟨_, rfl, by decide⟩, ⟨_, rfl, rfl⟩, ⟨_, rfl, by decide⟩, _, _, rfl, rfl, rfl⟩

/-- A short frame, junk, control, and data frames for every branch of the data arm. -/
theorem witness_RxFrameFollowsTheReceiveRule :
    State.reset.Inv ∧ open100.Inv ∧ holding2.Inv ∧ dropping.Inv ∧ (zeros 31).length ≠ 32
    ∧ decodePacket open100.cfg.tags (zeros 32) = .junk 0 ∧ decodePacket open100.cfg.tags ac = .allClear
    ∧ decodePacket open100.cfg.tags d2 = .data 2 (run 0x1D 29) 0x3F#8 true
    ∧ decodePacket open100.cfg.tags bad2 = .data 2 (0x1C#8 :: run 0x1E 28) 0x3F#8 false
    ∧ State.reset.allocated = false ∧ open100.allocated = true
    ∧ (decodePacket open100.cfg.tags (bytes [5] ++ zeros 31) = .data 5 (zeros 29) 0 true
      ∧ open100.expectedCount.toNat < (5 : U16).toNat)
    ∧ (dropping.allocated = true ∧ (2 : U16).toNat ≤ dropping.expectedCount.toNat ∧ dropping.cfg.policy = .drop)
    ∧ (open100.cfg.policy = .inform ∧ open100.bit (2 : U16).toNat = false ∧ holding2.bit (2 : U16).toNat = true) :=
  ⟨reset_inv, open100_inv, holding2_inv, dropping_inv, by decide, by decide, by decide, by decide, by decide, rfl, rfl,
    by decide, by decide, by decide⟩

theorem witness_CounterCountsStoredOutcomes : open100.Inv ∧ ∃ t, exec (.rxFrame d2) open100 = .next t :=
  ⟨open100_inv, _, rfl⟩

theorem witness_FrameTransferIsFaithful :
    open100.Inv ∧ dropping.Inv ∧ open100.allocated = true ∧ dropping.allocated = true
    ∧ dropping.fileSize = open100.fileSize ∧ 1 ≤ (4 : U16).toNat ∧ (4 : U16).toNat ≤ open100.expectedCount.toNat
    ∧ (4 : U16).toNat % 256 ≠ 0 ∧ (run 0x57 13).length ≤ 29 ∧ dropping.bit (4 : U16).toNat = false
    ∧ ∃ t, exec (.txData 4 (run 0x57 13)) open100 = .next t :=
  ⟨open100_inv, dropping_inv, rfl, rfl, rfl, by decide, by decide, by decide, by decide, by decide, _, rfl⟩

theorem witness_RetxRepeatsTxData :
    open100.Inv ∧ ∃ t, exec (.txData 4 (run 0x57 13)) open100 = .next t ∧ t.response.status = .ok :=
  ⟨open100_inv, _, rfl, rfl⟩

/-- The first alias (V-store 12). -/
theorem witness_AliasedIdsAreNeverReceived :
    open7396.Inv ∧ 256 % 256 = 0 ∧ open7396.bit 256 = false ∧ open7396.allocated = true
    ∧ 256 ≤ open7396.expectedCount.toNat ∧ ∃ t, exec (.rxFrame (bytes [0, 1, 0xE3] ++ zeros 28 ++ [0x73#8])) open7396 = .next t :=
  ⟨open7396_inv, rfl, rfl, rfl, by decide, _, rfl⟩

/-- Both frames of a file, one of them twice, out of order, with a junk frame among them. -/
theorem witness_EveryFrameOnceDeliversTheFile :
    open30.Inv ∧ open30.allocated = true ∧ open30.fileSize.toNat = file30.length ∧ open30.expectedCount.toNat ≤ 255
    ∧ open30.storedCount = 0
    ∧ (∀ f ∈ [fileFrame file30 2, zeros 32, fileFrame file30 1, fileFrame file30 2],
      (∃ x, 1 ≤ x ∧ x ≤ open30.expectedCount.toNat ∧ f = fileFrame file30 x)
      ∨ (f.length = 32 ∧ ∃ g, decodePacket open30.cfg.tags f = .junk g))
    ∧ ∀ x, 1 ≤ x → x ≤ open30.expectedCount.toNat →
      fileFrame file30 x ∈ [fileFrame file30 2, zeros 32, fileFrame file30 1, fileFrame file30 2] := by
  refine ⟨open30_inv, rfl, by decide, by decide, rfl, ?_, ?_⟩
  · intro f hf
    rcases List.mem_cons.1 hf with rfl | hf
    · exact .inl ⟨2, by decide, by decide, rfl⟩
    · rcases List.mem_cons.1 hf with rfl | hf
      · exact .inr ⟨by decide, 0, by decide⟩
      · rcases List.mem_cons.1 hf with rfl | hf
        · exact .inl ⟨1, by decide, by decide, rfl⟩
        · rcases List.mem_cons.1 hf with rfl | hf
          · exact .inl ⟨2, by decide, by decide, rfl⟩
          · cases hf
  · intro x h1 h2
    have h2 : x ≤ 2 := h2
    have : x = 1 ∨ x = 2 := by omega
    rcases this with rfl | rfl
    · exact .tail _ (.tail _ (.head _))
    · exact .head _

theorem witness_ResetStateIsSound : (facing .reset).Inv ∧ (facing .reset).input = .reset :: [] :=
  ⟨facing_inv _, rfl⟩

theorem witness_StepKeepsTheBlockSound :
    (facing (.issue (.command { op := 0x31#8 }))).Inv
    ∧ ∃ t, step (facing (.issue (.command { op := 0x31#8 }))) = .next t :=
  ⟨facing_inv _, _, rfl⟩

theorem witness_NoInputStopsTheBlock : (facing (.issue (.frame []))).Inv := facing_inv _

theorem witness_RefusedOperationsChangeNothing :
    ∃ t, exec (.get 1) holding2 = .next t ∧ t.response.status ≠ .ok := ⟨_, rfl, by decide⟩

theorem witness_StatusIsTheFirstThatApplies : dropping.Inv ∧ holding2.Inv := ⟨dropping_inv, holding2_inv⟩

/-- A flag that stays, and a flag that the reset input clears. -/
theorem witness_EventFlagsAreSticky :
    (∃ t, exec (.rxFrame d2) (holding2.setEvent junkSeen) = .next t
      ∧ (holding2.setEvent junkSeen).events.getLsbD 0 = true)
    ∧ isRxFrame .stat = false
    ∧ ∃ t, step ((facing .reset).setEvent junkSeen) = .next t
      ∧ ((facing .reset).setEvent junkSeen).events.getLsbD 0 = true ∧ t.events.getLsbD 0 = false :=
  ⟨⟨_, rfl, rfl⟩, rfl, _, rfl, rfl, rfl⟩

theorem witness_FlagsChangeNoBehaviour :
    Instr.rxFrame d2 ≠ .stat ∧ ∃ t, exec (.rxFrame d2) (holding2.setEvent junkSeen) = .next t :=
  ⟨(fun h => nomatch h), _, rfl⟩

theorem witness_ParametersNeverChange : ∃ t, step (facing .reset) = .next t := ⟨_, rfl⟩

/-- An operation that is not `RX_FRAME`, and `RX_FRAME` of a short operand, of control and junk frames whose last byte is
not the checksum of their payload field, and of a data frame whose checksum matches. -/
theorem witness_PolicyIsReadByRxFrameOnly :
    (isRxFrame .stat = false ∧ ∃ t, exec .stat open100 = .next t)
    ∧ ((zeros 31).length ≠ 32 ∧ ∃ t, exec (.rxFrame (zeros 31)) open100 = .next t)
    ∧ (decodePacket open100.cfg.tags s100 = .start 100 ∧ ckMatches (framePayload s100) (frameLast s100) = false
      ∧ ∃ t, exec (.rxFrame s100) open100 = .next t)
    ∧ (decodePacket open100.cfg.tags (bytes [0, 3, 1] ++ zeros 29) = .junk 3
      ∧ ckMatches (framePayload (bytes [0, 3, 1] ++ zeros 29)) (frameLast (bytes [0, 3, 1] ++ zeros 29)) = false
      ∧ ∃ t, exec (.rxFrame (bytes [0, 3, 1] ++ zeros 29)) open100 = .next t)
    ∧ ckMatches (framePayload d2) (frameLast d2) = true ∧ ∃ t, exec (.rxFrame d2) open100 = .next t :=
  ⟨⟨rfl, _, rfl⟩, ⟨by decide, _, rfl⟩, ⟨by decide, by decide, _, rfl⟩, ⟨by decide, by decide, _, rfl⟩, by decide, _, rfl⟩

/-- A block with leftover bytes of an earlier session in slot 2 and one without them (V-store 40). -/
theorem witness_LeftoverBytesAreNotObservable :
    (holding2.emptied.opened 100).Inv ∧ (open100.emptied.opened 100).Inv
    ∧ (holding2.emptied.opened 100).mem ≠ (open100.emptied.opened 100).mem
    ∧ sameStored (holding2.emptied.opened 100) (open100.emptied.opened 100)
    ∧ ∃ t, exec (.get 2) (holding2.emptied.opened 100) = .next t :=
  ⟨opened_inv (emptied_inv holding2_inv) (by decide), opened_inv (emptied_inv open100_inv) (by decide), by decide,
    ⟨rfl, fun slot h => nomatch h⟩, _, rfl⟩

theorem witness_MemoryKeepsItsForm :
    Memory.wf holding2.mem ∧ Bitmap.wf holding2.bits ∧ ∃ t, step holding2 = .next t :=
  ⟨holding2_inv.formed.memWf, holding2_inv.formed.bitsWf, _, rfl⟩

/-- A step that stores by `PUT`, by `TX_DATA` and by `RX_FRAME`, and steps that write no slot: a control frame received, an
operation that reads, and the reset input. -/
theorem witness_OnlySlotsOfTheSessionAreWritten :
    (∃ w t, decode open100.cfg.tags w = .instr (.put 4 []) ∧ writtenSlot open100.cfg.tags (.put 4 []) = some 4
      ∧ step (facing (.issue w)) = .next t ∧ t.bit 4 = true)
    ∧ (∃ w t, decode open100.cfg.tags w = .instr (.txData 4 []) ∧ writtenSlot open100.cfg.tags (.txData 4 []) = some 4
      ∧ step (facing (.issue w)) = .next t ∧ t.bit 4 = true)
    ∧ (∃ w t, decode open100.cfg.tags w = .instr (.rxFrame d2) ∧ writtenSlot open100.cfg.tags (.rxFrame d2) = some 2
      ∧ step (facing (.issue w)) = .next t ∧ t.bit 2 = true)
    ∧ (∃ w t, decode open100.cfg.tags w = .instr (.rxFrame ac) ∧ writtenSlot open100.cfg.tags (.rxFrame ac) = none
      ∧ step (facing (.issue w)) = .next t)
    ∧ (∃ w t, decode open100.cfg.tags w = .instr .stat ∧ writtenSlot open100.cfg.tags .stat = none
      ∧ step (facing (.issue w)) = .next t)
    ∧ ((∀ w rest, (facing .reset).input ≠ .issue w :: rest) ∧ ∃ t, step (facing .reset) = .next t) :=
  ⟨⟨.command { op := 0x32#8, a := 4 }, _, rfl, rfl, rfl, by decide⟩,
    ⟨.command { op := 0x40#8, a := 4 }, _, rfl, rfl, rfl, by decide⟩,
    ⟨.command { op := 0x42#8, n := 32#8, d := d2 }, _, by decide, by decide, rfl, by decide⟩,
    ⟨.command { op := 0x42#8, n := 32#8, d := ac }, _, by decide, by decide, rfl⟩,
    ⟨.command { op := 0x37#8 }, _, rfl, rfl, rfl⟩,
    ⟨(fun _ _ h => nomatch h), _, rfl⟩⟩

theorem witness_PureOperationsIgnoreTheState :
    namedSlot (.encStart 1) = none ∧ namedCount (.encStart 1) = none ∧ writesState (.encStart 1) = false
    ∧ Instr.encStart 1 ≠ .stat ∧ open100.cfg.tags = dropping.cfg.tags := by decide

theorem witness_SessionRegistersHaveTheirWriters :
    ∃ t, exec (.put 4 [0]) open100 = .next t ∧ Instr.put 4 [0] ≠ .free ∧ ∀ z, Instr.put 4 [0] ≠ .alloc z :=
  ⟨_, rfl, by decide, fun _ h => nomatch h⟩

end Sys2Proof.Tests
end

section
/-! The length of a file's last slot (10_state.md R29): `lastLen` case by case, and its equivalent form by the remainder. -/

namespace Sys2Proof.Machine

/-- The corner case of R29: a file of no slots has no last slot. -/
@[simp] theorem lastLen_zero (fileSize : U32) : lastLen fileSize 0 = 0 := rfl

theorem lastLen_of_pos (fileSize : U32) {n : U16} (hn : 1 ≤ n.toNat) :
    lastLen fileSize n = fileSize.toNat - payloadWidth * (n.toNat - 1) :=
  if_neg (Nat.one_le_iff_ne_zero.mp hn)

/-- A tail of `1..29` bytes after whole slots is determined by the size alone: it fills its slot exactly when the size is a
multiple of the slot, and is the remainder otherwise. -/
theorem tail_eq_size_mod {size whole tail : Nat} (hsum : payloadWidth * whole + tail = size)
    (hpos : 1 ≤ tail) (hle : tail ≤ payloadWidth) :
    tail = if size % payloadWidth = 0 then payloadWidth else size % payloadWidth := by
  have hmod : size % payloadWidth = tail % payloadWidth := by rw [← hsum, Nat.mul_add_mod]
  rw [hmod]
  obtain hlt | rfl := Nat.lt_or_eq_of_le hle
  · rw [Nat.mod_eq_of_lt hlt, if_neg (Nat.one_le_iff_ne_zero.mp hpos)]
  · rw [Nat.mod_self, if_pos rfl]

/-- Settles O28: in a sound open state the whole slots before the last one and `lastLen` make up `FILE_SIZE`, which fixes
both the difference and the remainder. -/
theorem lastSlotLength : Obligations.LastSlotLength := by
  unfold Obligations.LastSlotLength
  refine ⟨lastLen_zero, fun s hinv hopen hn => ?_⟩
  obtain ⟨hsum, hpos, hle⟩ := inv_lastLen hinv hopen hn
  exact ⟨lastLen_of_pos _ hn, hpos, hle, tail_eq_size_mod hsum hpos hle, hsum⟩

end Sys2Proof.Machine
end

section
/-! Reads and repeated writes (20_memory.md R57): no operation reads the response, an operation that writes neither the store
nor the flags leaves the state as it was, and storing what a slot holds changes nothing. -/

namespace Sys2Proof.Machine

open Sys2Proof.Claims

/-! ## The response is not read (log 2) -/

theorem receiveData_respond (seq : U16) (p : List Byte) (ok : Bool) (pkt : Packet) (s : State) (r : Response) :
    receiveData seq p ok pkt (s.respond r) = receiveData seq p ok pkt s := by
  cases ok with
  | false => rfl
  | true => rfl

theorem receivePacket_respond (pkt : Packet) (s : State) (r : Response) :
    receivePacket pkt (s.respond r) = receivePacket pkt s := by
  cases pkt with
  | data seq p ck ok => exact receiveData_respond seq p ok _ s r
  | start _ | retransmitRequest _ _ | allClear | prematureEnd | endPacket _ | junk _ => rfl

/-- Every operation ends as it would with another response on the port: each arm reads the other fields alone and puts a
response of its own. `RX_FRAME` picks the state it stores into by the checksum, so its packet is split first. -/
theorem exec_respond (i : Instr) (s : State) (r : Response) : exec i (s.respond r) = exec i s := by
  cases i with
  | rxFrame f => exact congrArg (s.withLength (f.length == frameBytes)) (receivePacket_respond _ s r)
  | _ => rfl

/-! ## Operations that only read -/

theorem effect_of_not_writesState {i : Instr} {s u : State} (hi : writesState i = false) (h : Effect i s u) : u = s := by
  cases h with
  | same => rfl
  | opened z _ _ source => subst source; cases hi
  | emptied source => subst source; cases hi
  | flagged f source => obtain ⟨g, rfl⟩ := source; cases hi
  | stored f slot p _ _ _ _ _ _ source =>
    obtain ⟨g, rfl⟩ | ⟨_, ⟨seq, q, rfl⟩ | ⟨seq, q, rfl⟩⟩ := source <;> cases hi

/-- An operation that writes neither the store nor the flags leaves a response and nothing else. -/
theorem exec_eq_respond {i : Instr} {s t : State} (hi : writesState i = false) (h : exec i s = .next t) :
    t = s.respond t.response := by
  obtain ⟨st, _, _, rfl⟩ | ⟨u, he, r, _, rfl⟩ := exec_outcomes h
  · rfl
  · rw [effect_of_not_writesState hi he]; rfl

/-! ## Storing what is stored -/

/-- Writing the bytes a run of the RAM holds leaves the RAM as it is. -/
theorem memory_writeBytes_of_readBytes {m : Memory} {a : Nat} {vs : List Byte} (hw : Memory.wf m)
    (h : Memory.readBytes m a vs.length = some vs) : Memory.writeBytes m a vs = m := by
  obtain ⟨-, hread⟩ := (memory_readBytes_eq_some m a vs.length vs).1 h
  refine memory_ext (memory_wf_writeBytes m a vs hw) hw fun x => ?_
  rw [memory_read_writeBytes]
  split
  case isFalse => rfl
  case isTrue hx =>
    have hk := hread (x - a) (by omega)
    rw [Nat.add_sub_cancel' hx.1, List.getD_eq_getElem vs 0 (by omega)] at hk
    rw [hk, List.getElem?_eq_getElem (by omega)]

/-- Storing in a slot whose bit is 1 the payload it holds changes nothing. -/
theorem storeSlot_of_stored {s : State} (hf : s.StoreFormed) {slot : Nat} {p : List Byte} (hp : p.length = 29)
    (hb : s.bit slot = true) (hr : s.readSlot slot = some p) : s.storeSlot slot p = s := by
  have hmem : Memory.writeBytes s.mem (slotAddr slot) p = s.mem :=
    memory_writeBytes_of_readBytes hf.memWf (by rw [hp]; exact hr)
  have hbits : Bitmap.set s.bits slot = s.bits := bitmap_set_of_test s.bits slot hf.bitsWf hb
  rw [State.storeSlot, hmem, hbits, if_pos hb]

/-- A slot stored twice with the same payload is as it was stored once. -/
theorem storeSlot_storeSlot {s : State} (h : s.Inv) {slot : Nat} {p : List Byte} (ha : s.allocated = true)
    (h1 : 1 ≤ slot) (h2 : slot ≤ s.expectedCount.toNat) (hp : p.length = 29) :
    (s.storeSlot slot p).storeSlot slot p = s.storeSlot slot p :=
  storeSlot_of_stored (storeSlot_inv h ha h1 h2 hp).formed hp (by simp [storeSlot_bit]) (storeSlot_readSlot_same s slot hp)

/-! ## PUT (42_packet_store.md R144) -/

theorem exec_put_ok {s : State} {seq : U16} {p : List Byte} (hp : p.length ≤ payloadWidth) (ha : s.allocated = true)
    (h1 : 1 ≤ seq.toNat) (h2 : seq.toNat ≤ s.expectedCount.toNat) (h3 : seq.toNat < s.cfg.storeDepth) :
    exec (.put seq p) s = .next ((s.storeSlot seq.toNat (pad29 p)).respond {}) := by
  change execPut seq p s = _
  rw [execPut, withLength_le s _ hp, withSlot_ok _ ha h1 h2 h3]
  rfl

/-- A `PUT` that answers `OK` passed every check and stored the padded payload. -/
theorem exec_put_cases_of_ok {s t : State} {seq : U16} {p : List Byte} (h : exec (.put seq p) s = .next t)
    (hok : t.response.status = .ok) :
    p.length ≤ payloadWidth ∧ s.allocated = true ∧ 1 ≤ seq.toNat ∧ seq.toNat ≤ s.expectedCount.toNat
      ∧ seq.toNat < s.cfg.storeDepth ∧ t = (s.storeSlot seq.toNat (pad29 p)).respond {} := by
  obtain ⟨_, rfl⟩ | ⟨hp, h⟩ := withLength_next h
  · cases hok
  · obtain ⟨_, rfl⟩ | ⟨_, _, rfl⟩ | ⟨ha, h1, h2, h3, h⟩ := withSlot_next h
    · cases hok
    · cases hok
    · cases h
      exact ⟨of_decide_eq_true hp, ha, h1, h2, h3, rfl⟩

/-- A second `PUT` of the same bytes leaves the state of the first. -/
theorem exec_put_again {s t : State} {seq : U16} {p : List Byte} (hs : s.Inv) (h : exec (.put seq p) s = .next t)
    (hok : t.response.status = .ok) : exec (.put seq p) t = .next t := by
  obtain ⟨hp, ha, h1, h2, h3, rfl⟩ := exec_put_cases_of_ok h hok
  rw [exec_respond, exec_put_ok (s := s.storeSlot seq.toNat (pad29 p)) hp ha h1 h2 h3,
    storeSlot_storeSlot hs ha h1 h2 (pad29_length hp)]

/-- Settles O32: a read ends in its own response on the old state, which no operation can tell from the old state; a `PUT`
of the bytes a slot holds stores what is there. -/
theorem readsHaveNoSideEffect : Obligations.ReadsHaveNoSideEffect := by
  unfold Obligations.ReadsHaveNoSideEffect
  refine ⟨fun s t i hi h => ?_, fun s t seq p hs h hok => exec_put_again hs h hok⟩
  have ht : t = s.respond t.response := exec_eq_respond hi h
  have hsame : ∀ j : Instr, exec j t = exec j s := fun j => by rw [ht]; exact exec_respond j s _
  exact ⟨ht, (hsame i).trans h, hsame⟩

end Sys2Proof.Machine
end

section
/-! Commands that cannot be read (30_encoding.md R90 to R92): the decoder refuses them with `BAD_OP` and no others, and no
instruction that runs answers `BAD_OP` (60_exceptions.md R199). -/

namespace Sys2Proof.Machine

open Sys2Proof.Claims

/-! ## The command decoder, by the two lists of codes -/

theorem withU16_of_lt {c : Command} (k : U16 → Instr) (ha : c.a.toNat < 65536) :
    c.withU16 k = .instr (k (BitVec.ofNat 16 c.a.toNat)) :=
  if_pos ha

theorem withU16_of_ge {c : Command} (k : U16 → Instr) (ha : 65536 ≤ c.a.toNat) : c.withU16 k = .reject .badOp :=
  if_neg (Nat.not_lt.mpr ha)

/-- Every code of `scalarCodes` has a row whose instruction takes its 16-bit operand from `a`. -/
theorem decodeCommand_of_mem_scalarCodes {c : Command} (h : c.op ∈ scalarCodes) :
    ∃ k, decodeCommand c = c.withU16 k := by
  obtain ⟨op, a, b, n, d⟩ := c
  simp only [scalarCodes, List.mem_cons, List.not_mem_nil, or_false] at h
  rcases h with rfl | rfl | rfl | rfl | rfl | rfl | rfl | rfl | rfl
  all_goals
    simp only [decodeCommand, BitVec.reduceToNat]
    exact ⟨_, rfl⟩

/-- Every code of `otherCodes` has a row that reads as an instruction whatever `a` is (log 16). -/
theorem decodeCommand_of_mem_otherCodes {c : Command} (h : c.op ∈ otherCodes) : ∃ i, decodeCommand c = .instr i := by
  obtain ⟨op, a, b, n, d⟩ := c
  fin_cases h <;> exact ⟨_, rfl⟩

/-- The decoder has no rows but those of the two lists. -/
theorem decodeCommand_of_unlisted {c : Command} (hs : c.op ∉ scalarCodes) (ho : c.op ∉ otherCodes) :
    decodeCommand c = .reject .badOp := by
  have unlisted (code : Nat) (h : c.op.toNat = code) : ¬ (BitVec.ofNat 8 code ∈ scalarCodes ++ otherCodes) := by
    rw [← h, BitVec.ofNat_toNat, BitVec.setWidth_eq, List.mem_append]
    exact not_or.mpr ⟨hs, ho⟩
  unfold decodeCommand
  split
  case h_21 => rfl
  all_goals
    rename_i hcode
    exact absurd (by decide) (unlisted _ hcode)

/-- A command whose code is in no row, or whose 16-bit operand has a bit above it (R92). -/
def Unreadable (c : Command) : Prop :=
  (c.op ∉ scalarCodes ∧ c.op ∉ otherCodes) ∨ (c.op ∈ scalarCodes ∧ 65536 ≤ c.a.toNat)

theorem decodeCommand_of_unreadable {c : Command} (h : Unreadable c) : decodeCommand c = .reject .badOp := by
  obtain ⟨hs, ho⟩ | ⟨hs, ha⟩ := h
  · exact decodeCommand_of_unlisted hs ho
  · obtain ⟨k, hk⟩ := decodeCommand_of_mem_scalarCodes hs
    rw [hk, withU16_of_ge k ha]

theorem decodeCommand_of_not_unreadable {c : Command} (h : ¬ Unreadable c) : ∃ i, decodeCommand c = .instr i := by
  by_cases hs : c.op ∈ scalarCodes
  · obtain ⟨k, hk⟩ := decodeCommand_of_mem_scalarCodes hs
    have ha : c.a.toNat < 65536 := Nat.lt_of_not_le fun ha => h (.inr ⟨hs, ha⟩)
    exact ⟨_, hk.trans (withU16_of_lt k ha)⟩
  · have ho : c.op ∈ otherCodes := by_contra fun ho => h (.inl ⟨hs, ho⟩)
    exact decodeCommand_of_mem_otherCodes ho

/-! ## The step on an issued word -/

theorem step_of_decode_instr {s : State} {w : PortWord} {rest : List HostEvent} {i : Instr}
    (hin : s.input = .issue w :: rest) (hd : decode s.cfg.tags w = .instr i) :
    step s = exec i { s with input := rest } := by
  simp only [step, State.fetch, hin, hd]

theorem step_of_decode_reject {s : State} {w : PortWord} {rest : List HostEvent} {st : Status}
    (hin : s.input = .issue w :: rest) (hd : decode s.cfg.tags w = .reject st) :
    step s = .next ({ s with input := rest }.refuse st) := by
  simp only [step, State.fetch, hin, hd]

/-- `BAD_OP` is the decoder's alone. -/
theorem exec_status_ne_badOp {i : Instr} {s t : State} (h : exec i s = .next t) : t.response.status ≠ .badOp := by
  obtain ⟨st, -, hst, rfl⟩ | ⟨u, -, r, hr, rfl⟩ := exec_outcomes h
  · exact hst
  · change r.status ≠ .badOp
    rw [hr]
    decide

/-- Settles O4: an unreadable command is refused by the decoder; any other is run, and what runs never answers `BAD_OP`. -/
theorem badOpIsForUnreadableCommands : Obligations.BadOpIsForUnreadableCommands := by
  unfold Obligations.BadOpIsForUnreadableCommands
  intro s c rest hin
  have refused (h : Unreadable c) : step s = .next ({ s with input := rest }.refuse .badOp) :=
    step_of_decode_reject hin (decodeCommand_of_unreadable h)
  refine ⟨⟨fun h => ⟨_, refused h, rfl⟩, ?_⟩, refused⟩
  rintro ⟨t, hstep, hbad⟩
  by_contra h
  obtain ⟨i, hi⟩ := decodeCommand_of_not_unreadable h
  rw [step_of_decode_instr hin hi] at hstep
  exact exec_status_ne_badOp hstep hbad

end Sys2Proof.Machine
end

section
/-! The frame codec (40_frame_codec.md R100 to R107): the frames the encoders pack, byte by byte, what the decoder makes of
every frame, and that codec, checksum and frame rows answer from their operands and the tags alone. -/

namespace Sys2Proof.Machine

open Sys2Proof.Claims

/-! ## Answers of the codec operations -/

/-- An operation that completes with a frame answers it however the frame is written. -/
theorem answers_of_frame_eq {i : Instr} {s : State} {q q' : List Byte} (h : exec i s = s.done { q := q })
    (hq : q = q') : answers i s { q := q' } :=
  hq ▸ h

theorem answers_encData (s : State) (seq : U16) {p : List Byte} (hp : p.length ≤ payloadWidth) :
    answers (.encData seq p) s { q := dataFrame seq (pad29 p) } :=
  withLength_le s _ hp

theorem refusedWith_encData (s : State) (seq : U16) {p : List Byte} (hp : payloadWidth < p.length) :
    refusedWith (.encData seq p) s .badLen :=
  withLength_gt s _ hp

theorem answers_encRreq (s : State) (run : U16) {ids : List U16} (h : ids.length ≤ idsPerRequest) :
    answers (.encRreq run ids) s { q := requestFrame s.cfg.tags run ids } :=
  withLength_le s _ h

theorem refusedWith_encRreq (s : State) (run : U16) {ids : List U16} (h : idsPerRequest < ids.length) :
    refusedWith (.encRreq run ids) s .badLen :=
  withLength_gt s _ h

theorem answers_decode (s : State) {f : List Byte} (h : f.length = 32) :
    answers (.decode f) s { pkt := some (decodePacket s.cfg.tags f) } :=
  withLength_frame s _ h

theorem refusedWith_decode (s : State) {f : List Byte} (h : f.length ≠ 32) : refusedWith (.decode f) s .badLen :=
  withLength_badFrame s _ h

/-! ## Purity (R100, 41_checksum.md R132, R134; the frame rows by log 4) -/

/-- The operation completes in every state, writes nothing but its response, and the response is a function of the tags. -/
def AnswersFromTags (i : Instr) : Prop := ∃ f : Tags → Response, ∀ s, answers i s (f s.cfg.tags)

theorem answersFromTags_of_done {i : Instr} (f : Tags → Response) (h : ∀ s, exec i s = s.done (f s.cfg.tags)) :
    AnswersFromTags i :=
  ⟨f, h⟩

/-- A length check looks at the operand alone, so a refusal is as pure as the answer. -/
theorem answersFromTags_of_withLength {i : Instr} (admitted : Bool) (f : Tags → Response)
    (h : ∀ s, exec i s = s.withLength admitted (s.done (f s.cfg.tags))) : AnswersFromTags i := by
  cases admitted with
  | false => exact ⟨fun _ => errorResponse .badLen, h⟩
  | true => exact ⟨f, h⟩

/-- The operations left when those that read or write registers, flags or the store are taken away. -/
theorem answersFromTags_of_pure {i : Instr} (hslot : namedSlot i = none) (hcount : namedCount i = none)
    (hwrites : writesState i = false) (hstat : i ≠ .stat) : AnswersFromTags i := by
  cases i with
  | frameData _ _ _ | frameStart _ | frameRetransmitRequest _ _ | frameAllClear | framePrematureEnd | frameEnd _
  | frameJunk _ => exact answersFromTags_of_done (fun _ => _) fun _ => rfl
  | encStart z => exact answersFromTags_of_done (fun t => { q := startFrame t z }) fun _ => rfl
  | encAllclear => exact answersFromTags_of_done (fun t => { q := allClearFrame t }) fun _ => rfl
  | encPremend => exact answersFromTags_of_done (fun t => { q := prematureEndFrame t }) fun _ => rfl
  | encEnd n => exact answersFromTags_of_done (fun t => { q := endFrame t n }) fun _ => rfl
  | encData _ _ | fletcher8 _ | verify _ => exact answersFromTags_of_withLength _ (fun _ => _) fun _ => rfl
  | encRreq run ids => exact answersFromTags_of_withLength _ (fun t => { q := requestFrame t run ids }) fun _ => rfl
  | decode f => exact answersFromTags_of_withLength _ (fun t => { pkt := some (decodePacket t f) }) fun _ => rfl
  | alloc _ | free | put _ _ | txData _ _ | rxFrame _ => cases hwrites
  | get _ | test _ | retx _ => cases hslot
  | missing _ | assemble _ => cases hcount
  | stat => exact absurd rfl hstat

/-- Settles O54: a response that is a function of the tags is the same in two states with the same tags. -/
theorem pureOperationsIgnoreTheState : Obligations.PureOperationsIgnoreTheState := by
  unfold Obligations.PureOperationsIgnoreTheState
  intro i s u hslot hcount hwrites hstat htags
  obtain ⟨f, hf⟩ := answersFromTags_of_pure hslot hcount hwrites hstat
  exact ⟨f s.cfg.tags, hf s, htags ▸ hf u⟩

/-! ## Data frames (R101) -/

/-- Padding is what `padded` reads, past the padded field too. -/
theorem pad29_getD (p : List Byte) (k : Nat) : (pad29 p).getD k 0 = padded p k := by
  unfold padded pad29
  split
  · next h => rw [List.getD_append _ _ _ _ h]
  · next h =>
    rw [List.getD_append_right _ _ _ _ (Nat.le_of_not_lt h)]
    exact List.getElem?_getD_replicate_default_eq _ _ _

theorem isDataFrame_dataFrame (seq : U16) {p : List Byte} {pay : Nat → Byte} (hp : p.length = payloadWidth)
    (hpay : ∀ k, k < 29 → p.getD k 0 = pay k) : isDataFrame (dataFrame seq p) seq pay where
  length := dataFrameWith_length seq _ hp
  low := lo8_toNat seq
  high := hi8_toNat seq
  payload k hk := (dataFrameWith_byte seq _ hp hk).trans (hpay k hk)
  checksum := (dataFrameWith_last seq _ hp).trans (congrArg fletcher8 (dataFrameWith_payload seq _ hp).symm)

/-- Settles O9: an admitted payload is padded to the width of the payload field and framed; a longer one is refused. -/
theorem encDataPacksTheDataFrame : Obligations.EncDataPacksTheDataFrame := by
  unfold Obligations.EncDataPacksTheDataFrame
  refine fun s seq p => ⟨fun hp => ⟨_, answers_encData s seq hp, ?_⟩, refusedWith_encData s seq⟩
  exact isDataFrame_dataFrame seq (pad29_length hp) fun k _ => pad29_getD p k

/-! ## Control frames without a list (R102, R104 to R106) -/

/-- The unused bytes of the payload field and the terminator are one run of zeros. -/
theorem controlFrame_eq_append_zeros (tag : Byte) {fields : List Byte} (h : fields.length ≤ payloadWidth) :
    controlFrame tag fields = 0x00#8 :: tag :: (fields ++ zeros (30 - fields.length)) := by
  have hz : zeros (payloadWidth - fields.length) ++ [terminator] = zeros (30 - fields.length) := by
    rw [show 30 - fields.length = payloadWidth - fields.length + 1 from Nat.sub_add_comm (m := 1) h]
    exact List.replicate_succ'.symm
  rw [← hz]
  simp [controlFrame]

theorem toNat_eq_lo8_hi8 (v : U16) : v.toNat = (lo8 v).toNat + 256 * (hi8 v).toNat := by
  rw [← le16_toNat, le16_lo8_hi8]

theorem startFrame_eq (t : Tags) (z : U32) :
    startFrame t z = 0x00#8 :: t.start :: (bytesLe32 z ++ zeros 26) :=
  controlFrame_eq_append_zeros t.start (Nat.le_add_right 4 25)

theorem allClearFrame_eq (t : Tags) : allClearFrame t = 0x00#8 :: t.allClear :: zeros 30 :=
  controlFrame_eq_append_zeros t.allClear (Nat.zero_le 29)

theorem prematureEndFrame_eq (t : Tags) : prematureEndFrame t = 0x00#8 :: t.prematureEnd :: zeros 30 :=
  controlFrame_eq_append_zeros t.prematureEnd (Nat.zero_le 29)

theorem endFrame_eq (t : Tags) (n : U16) : endFrame t n = 0x00#8 :: t.endTag :: (bytesLe16 n ++ zeros 28) :=
  controlFrame_eq_append_zeros t.endTag (Nat.le_add_right 2 27)

/-- Settles O10: each encoder answers its control frame, whose fields are the operand's bytes. -/
theorem controlEncodersPackTheirFrame : Obligations.ControlEncodersPackTheirFrame := by
  unfold Obligations.ControlEncodersPackTheirFrame
  refine fun s z n => ⟨⟨_, _, _, _, answers_of_frame_eq rfl (startFrame_eq _ z), ?_⟩,
    answers_of_frame_eq rfl (allClearFrame_eq _), answers_of_frame_eq rfl (prematureEndFrame_eq _),
    ⟨_, _, answers_of_frame_eq rfl (endFrame_eq _ n), toNat_eq_lo8_hi8 n⟩⟩
  rw [← le32_toNat, le32_bytesLe32]

/-! ## Request frames (R103) -/

/-- The port word of a request row is carried, so it has the length of a frame. -/
theorem requestFrame_length (t : Tags) (run : U16) {ids : List U16} (h : ids.length ≤ idsPerRequest) :
    (requestFrame t run ids).length = 32 :=
  beq_iff_eq.1 (Laws.EncodesToAPortWord.frameRetransmitRequest run ids t (decide_eq_true h))

theorem num_eq_byteAt (f : List Byte) (i : Nat) : num f i = (byteAt f i).toNat := rfl

theorem requestFrame_count (t : Tags) (run : U16) (ids : List U16) :
    byteAt (requestFrame t run ids) 2 = BitVec.ofNat 8 ids.length :=
  controlFrame_field _ _ 0

theorem requestFrame_run (t : Tags) (run : U16) (ids : List U16) :
    byteAt (requestFrame t run ids) 3 = lo8 run ∧ byteAt (requestFrame t run ids) 4 = hi8 run :=
  ⟨controlFrame_field _ _ 1, controlFrame_field _ _ 2⟩

/-- The bytes from place 5 on are those of the ids, then zeros. -/
theorem requestFrame_idByte (t : Tags) (run : U16) (ids : List U16) (k : Nat) :
    byteAt (requestFrame t run ids) (5 + k) = (ids.flatMap bytesLe16).getD k 0 := by
  rw [requestFrame, show 5 + k = 2 + (k + 3) from by omega, controlFrame_field]
  rfl

/-- The `j`-th number in the bytes of a list of ids: the id in that place, 0 past the end of the list. -/
theorem ids_bytes_num (ids : List U16) (j : Nat) :
    num (ids.flatMap bytesLe16) (2 * j) + 256 * num (ids.flatMap bytesLe16) (2 * j + 1)
      = if j < ids.length then (ids.getD j 0).toNat else 0 := by
  unfold num
  split
  · next hj =>
    obtain ⟨hlo, hhi⟩ := ids_bytes_getD ids j hj
    rw [hlo, hhi, toNat_eq_lo8_hi8]
  · next hj =>
    have := ids_bytes_length ids
    rw [List.getD_eq_default _ _ (by omega), List.getD_eq_default _ _ (by omega)]
    rfl

/-- Settles O11: the fields of the request frame are the count, `req_run` and the bytes of the ids; with at most 13 ids
they leave byte 31 unused. -/
theorem encRreqPacksTheRequest : Obligations.EncRreqPacksTheRequest := by
  unfold Obligations.EncRreqPacksTheRequest
  refine fun s run ids => ⟨fun h => ?_, refusedWith_encRreq s run⟩
  obtain ⟨hlo, hhi⟩ := requestFrame_run s.cfg.tags run ids
  refine ⟨_, answers_encRreq s run h, requestFrame_length _ _ h, congrArg BitVec.toNat (controlFrame_zero _ _),
    controlFrame_one _ _, ?_, ?_, fun j _ => ?_, ?_⟩
  · rw [num_eq_byteAt, requestFrame_count, BitVec.toNat_ofNat]
    omega
  · rw [num_eq_byteAt, num_eq_byteAt, hlo, hhi, ← toNat_eq_lo8_hi8]
  · rw [num_eq_byteAt, num_eq_byteAt, show 6 + 2 * j = 5 + (2 * j + 1) from by omega, requestFrame_idByte,
      requestFrame_idByte]
    exact ids_bytes_num ids j
  · have := ids_bytes_length ids
    rw [num_eq_byteAt, requestFrame_idByte _ _ _ 26, List.getD_eq_default _ _ (by omega)]
    rfl

/-! ## The decoder, branch by branch (R107, 30_encoding.md R84) -/

theorem byteAt_eq_zero_iff (f : List Byte) (i : Nat) : byteAt f i = 0x00#8 ↔ num f i = 0 :=
  BitVec.toNat_inj.symm

theorem decodePacket_data (t : Tags) {f : List Byte} (h0 : byteAt f 0 ≠ 0x00#8) :
    decodePacket t f = .data (le16 (byteAt f 0) (byteAt f 1)) (framePayload f) (frameLast f)
      (ckMatches (framePayload f) (frameLast f)) :=
  if_pos h0

/-- Distinct tags, each beside those the decoder compares before it. -/
theorem tags_ne_earlier {t : Tags} (ht : t.distinct) :
    (t.endTag ≠ t.prematureEnd ∧ t.endTag ≠ t.allClear ∧ t.endTag ≠ t.retransmitRequest ∧ t.endTag ≠ t.start)
    ∧ (t.prematureEnd ≠ t.allClear ∧ t.prematureEnd ≠ t.retransmitRequest ∧ t.prematureEnd ≠ t.start)
    ∧ (t.allClear ≠ t.retransmitRequest ∧ t.allClear ≠ t.start) ∧ t.retransmitRequest ≠ t.start := by
  simpa using List.nodup_reverse.2 ht

section control

variable {t : Tags} {f : List Byte} (h0 : byteAt f 0 = 0x00#8)

include h0

theorem decodePacket_start (h1 : byteAt f 1 = t.start) :
    decodePacket t f = .start (le32 (byteAt f 2) (byteAt f 3) (byteAt f 4) (byteAt f 5)) := by
  simp [decodePacket, h0, h1]

theorem decodePacket_junk (h1 : byteAt f 1 ≠ t.start) (h2 : byteAt f 1 ≠ t.retransmitRequest)
    (h3 : byteAt f 1 ≠ t.allClear) (h4 : byteAt f 1 ≠ t.prematureEnd) (h5 : byteAt f 1 ≠ t.endTag) :
    decodePacket t f = .junk (byteAt f 1) := by
  simp [decodePacket, h0, h1, h2, h3, h4, h5]

variable (ht : t.distinct)

include ht

theorem decodePacket_request_junk (h1 : byteAt f 1 = t.retransmitRequest) (h2 : idsPerRequest < (byteAt f 2).toNat) :
    decodePacket t f = .junk (byteAt f 1) := by
  simp [decodePacket, h0, h1, tags_ne_earlier ht, h2]

theorem decodePacket_request (h1 : byteAt f 1 = t.retransmitRequest) (h2 : (byteAt f 2).toNat ≤ idsPerRequest) :
    decodePacket t f
      = .retransmitRequest (le16 (byteAt f 3) (byteAt f 4)) (frameIds f (byteAt f 2).toNat) := by
  simp [decodePacket, h0, h1, tags_ne_earlier ht, Nat.not_lt.2 h2]

theorem decodePacket_allClear (h1 : byteAt f 1 = t.allClear) : decodePacket t f = .allClear := by
  simp [decodePacket, h0, h1, tags_ne_earlier ht]

theorem decodePacket_prematureEnd (h1 : byteAt f 1 = t.prematureEnd) : decodePacket t f = .prematureEnd := by
  simp [decodePacket, h0, h1, tags_ne_earlier ht]

theorem decodePacket_end (h1 : byteAt f 1 = t.endTag) :
    decodePacket t f = .endPacket (le16 (byteAt f 2) (byteAt f 3)) := by
  simp [decodePacket, h0, h1, tags_ne_earlier ht]

end control

@[simp] theorem frameIds_length (f : List Byte) (c : Nat) : (frameIds f c).length = c := by
  simp [frameIds]

theorem frameIds_getD (f : List Byte) {c j : Nat} (hj : j < c) :
    (frameIds f c).getD j 0 = le16 (byteAt f (5 + 2 * j)) (byteAt f (6 + 2 * j)) := by
  rw [List.getD_eq_getElem _ _ (by simpa using hj)]
  simp [frameIds]

/-- Settles O7: every operand of 32 bytes falls under one branch of the decoder, which the distinct tags keep apart, and
the fields of the variant are little-endian numbers of the frame's bytes. -/
theorem decodeClassifiesEveryFrame : Obligations.DecodeClassifiesEveryFrame := by
  unfold Obligations.DecodeClassifiesEveryFrame
  refine fun s f ht => ⟨refusedWith_decode s, fun hf => ⟨_, answers_decode s hf, ?_⟩⟩
  simp only [ne_eq, ← byteAt_eq_zero_iff f 0]
  refine ⟨fun h0 => ⟨_, _, decodePacket_data _ h0, le16_toNat _ _, beq_iff_eq⟩,
    fun h0 h1 => ⟨_, decodePacket_start h0 h1, le32_toNat _ _ _ _⟩,
    fun h0 h1 h2 => decodePacket_request_junk h0 ht h1 h2,
    fun h0 h1 h2 => ⟨_, _, decodePacket_request h0 ht h1 h2, le16_toNat _ _, frameIds_length _ _, fun j hj => ?_⟩,
    fun h0 h1 => decodePacket_allClear h0 ht h1,
    fun h0 h1 => decodePacket_prematureEnd h0 ht h1,
    fun h0 h1 => ⟨_, decodePacket_end h0 ht h1, le16_toNat _ _⟩,
    fun h0 h1 h2 h3 h4 h5 => decodePacket_junk h0 h1 h2 h3 h4 h5⟩
  exact (congrArg BitVec.toNat (frameIds_getD f hj)).trans (le16_toNat _ _)

end Sys2Proof.Machine
end

section
/-! The checksum (41_checksum.md R130 to R134): its two nibbles are the running sums, `FLETCHER8` answers it and `VERIFY`
compares it with the last byte of the frame. -/

namespace Sys2Proof.Machine

open Sys2Proof.Claims

/-! ## The running sums (R130) -/

/-- The two running sums after a byte sequence, before they are packed. -/
def fletcherSums (bytes : List Byte) : Nat × Nat := bytes.foldl fletcherStep (0, 0)

theorem fletcherSums_append_singleton (bytes : List Byte) (b : Byte) :
    fletcherSums (bytes ++ [b]) = fletcherStep (fletcherSums bytes) b :=
  List.foldl_append

theorem fletcherSums_lt (bytes : List Byte) : (fletcherSums bytes).1 < 16 ∧ (fletcherSums bytes).2 < 16 := by
  induction bytes using List.reverseRecOn with
  | nil => exact ⟨Nat.succ_pos 15, Nat.succ_pos 15⟩
  | append_singleton bytes b _ =>
    rw [fletcherSums_append_singleton]
    exact ⟨Nat.mod_lt _ (by decide), Nat.mod_lt _ (by decide)⟩

/-- Both sums fit a nibble, so packing them into a byte loses nothing. -/
theorem fletcher8_toNat (bytes : List Byte) :
    (fletcher8 bytes).toNat = (fletcherSums bytes).1 + 16 * (fletcherSums bytes).2 := by
  obtain ⟨h1, h2⟩ := fletcherSums_lt bytes
  change (BitVec.ofNat 8 ((fletcherSums bytes).1 + 16 * (fletcherSums bytes).2)).toNat = _
  rw [BitVec.toNat_ofNat, Nat.mod_eq_of_lt (by omega)]

theorem fletcher8_lowNibble (bytes : List Byte) : (fletcher8 bytes).toNat % 16 = (fletcherSums bytes).1 := by
  have := fletcherSums_lt bytes
  have := fletcher8_toNat bytes
  omega

theorem fletcher8_highNibble (bytes : List Byte) : (fletcher8 bytes).toNat / 16 = (fletcherSums bytes).2 := by
  have := fletcherSums_lt bytes
  have := fletcher8_toNat bytes
  omega

/-- Settles O14: the nibbles are the running sums, and one more byte is one more step of them. -/
theorem fletcherAddsByteByByte : Obligations.FletcherAddsByteByByte := by
  unfold Obligations.FletcherAddsByteByByte
  refine ⟨rfl, fun bytes b => ?_⟩
  simp only [fletcher8_lowNibble, fletcher8_highNibble, fletcherSums_append_singleton]
  exact ⟨rfl, rfl⟩

/-! ## FLETCHER8 (R132) -/

theorem answers_fletcher8 (s : State) {bytes : List Byte} (h : bytes.length ≤ maxCkLen) :
    answers (.fletcher8 bytes) s { r := (fletcher8 bytes).setWidth 32 } :=
  withLength_le s _ h

theorem refusedWith_fletcher8 (s : State) {bytes : List Byte} (h : maxCkLen < bytes.length) :
    refusedWith (.fletcher8 bytes) s .badLen :=
  withLength_gt s _ h

/-- Settles O18: an admitted operand is answered with its checksum, which zero extension leaves as a number. -/
theorem fletcher8AnswersTheChecksum : Obligations.Fletcher8AnswersTheChecksum := by
  unfold Obligations.Fletcher8AnswersTheChecksum
  exact fun s bytes => ⟨fun h => ⟨_, answers_fletcher8 s h, BitVec.toNat_setWidth_of_le (by decide)⟩,
    refusedWith_fletcher8 s⟩

/-! ## VERIFY (R134) -/

/-- The number `VERIFY` answers for a frame. -/
def verdict (f : List Byte) : U32 := if ckMatches (framePayload f) (frameLast f) then 1 else 0

theorem verdict_eq_zero_or_one (f : List Byte) : verdict f = 0 ∨ verdict f = 1 :=
  (ite_eq_or_eq _ _ _).symm

theorem verdict_eq_one_iff (f : List Byte) : verdict f = 1 ↔ ckMatches (framePayload f) (frameLast f) = true := by
  unfold verdict
  split
  · next h => exact iff_of_true rfl h
  · next h => exact iff_of_false (by decide) h

theorem answers_verify (s : State) {f : List Byte} (h : f.length = 32) : answers (.verify f) s { r := verdict f } :=
  withLength_frame s _ h

theorem refusedWith_verify (s : State) {f : List Byte} (h : f.length ≠ 32) : refusedWith (.verify f) s .badLen :=
  withLength_badFrame s _ h

/-- `VERIFY` and the `ck_ok` of `DECODE` are one comparison. -/
theorem answers_decode_verdict (s : State) {f : List Byte} (h : f.length = 32) (h0 : byteAt f 0 ≠ 0x00#8) :
    answers (.decode f) s { pkt := some (.data (le16 (byteAt f 0) (byteAt f 1)) (framePayload f) (frameLast f)
      (decide (verdict f = 1))) } := by
  have hck : decide (verdict f = 1) = ckMatches (framePayload f) (frameLast f) :=
    Bool.eq_iff_iff.2 (decide_eq_true_iff.trans (verdict_eq_one_iff f))
  rw [hck, ← decodePacket_data s.cfg.tags h0]
  exact answers_decode s h

/-- Settles O19: the verdict is 1 exactly when the comparison holds that `DECODE` reports for a data frame. -/
theorem verifyComparesTheChecksumByte : Obligations.VerifyComparesTheChecksumByte := by
  unfold Obligations.VerifyComparesTheChecksumByte
  refine fun s f => ⟨fun hf => ⟨verdict f, answers_verify s hf, verdict_eq_zero_or_one f, ?_, fun h0 => ?_⟩,
    refusedWith_verify s⟩
  · exact (verdict_eq_one_iff f).trans beq_iff_eq
  · exact ⟨_, _, _, answers_decode_verdict s hf (mt (byteAt_eq_zero_iff f 0).1 h0)⟩

end Sys2Proof.Machine
end

section
/-! The packet store (42_packet_store.md R142 to R149), one part for each operation: what it answers once its checks are
passed, and the refusals in their order. -/

namespace Sys2Proof.Machine

open Sys2Proof.Claims

/-! ## ALLOC (R142) -/

theorem exec_alloc_busy {s : State} (z : U32) (ha : s.allocated = true) : exec (.alloc z) s = s.raise .busy :=
  if_pos ha

theorem exec_alloc_closed {s : State} (z : U32) (ha : s.allocated = false) :
    exec (.alloc z) s = if s.cfg.storeDepth < packetCount z + 1 then s.raise .tooLarge
      else (s.opened z).done { r := BitVec.ofNat 32 (packetCount z) } :=
  if_neg (ne_true_of_eq_false ha)

/-- Settles O20: a closed block refuses a file that does not fit and otherwise becomes `State.opened`, whose 16-bit count
holds the packet count because an admitted depth is at most 65536. -/
theorem allocOpensTheStore : Obligations.AllocOpensTheStore := by
  unfold Obligations.AllocOpensTheStore
  refine fun s z hv => ⟨exec_alloc_busy z, fun ha hz => (exec_alloc_closed z ha).trans (if_pos hz), fun ha hz => ?_⟩
  have hexec := (exec_alloc_closed z ha).trans (if_neg (Nat.not_lt.2 hz))
  exact ⟨_, hexec, rfl, rfl, opened_count hv hz, rfl, fun _ => rfl, rfl, rfl, rfl, rfl, rfl⟩

/-! ## FREE (R143) -/

theorem bits_eq_nil_of_bit_false {s : State} (h : ∀ slot, s.bit slot = false) : s.bits = [] :=
  List.eq_nil_iff_forall_not_mem.2 fun slot hmem => by
    have hset : s.bit slot = true := List.contains_iff_mem.2 hmem
    rw [h slot] at hset
    cases hset

/-- An empty block is its own emptied state (10_state.md R30 item 1). -/
theorem emptied_of_empty {s : State} (h : s.StoreSound) (ha : s.allocated = false) (he : s.events = 0) :
    s.emptied = s := by
  obtain ⟨hsize, hcount, hstored, hbit⟩ := h.empty ha
  have hbits := bits_eq_nil_of_bit_false hbit
  cases s
  simp_all [State.emptied]

/-- Settles O21: `FREE` ends in the emptied state, which is the state itself when the block was empty. -/
theorem freeEmptiesTheBlock : Obligations.FreeEmptiesTheBlock := by
  unfold Obligations.FreeEmptiesTheBlock
  refine ⟨fun s => ⟨_, rfl, rfl, rfl, rfl, rfl, rfl, fun _ => rfl, rfl, rfl, rfl, rfl⟩, fun s hs ha he => ?_⟩
  change Host.Outcome.next (s.emptied.respond {}) = .next (s.respond {})
  rw [emptied_of_empty hs.sound ha he]

/-! ## PUT (R144) -/

/-- The 29 bytes a slot is read as are the bytes of the RAM at its address. -/
theorem readSlot_eq_some {s : State} {slot : Nat} {p : List Byte} (h : s.readSlot slot = some p) :
    p.length = 29 ∧ ∀ k, k < 29 → Memory.read s.mem (29 * slot + k) = some (p.getD k 0) :=
  (memory_readBytes_eq_some _ _ _ _).1 h

/-- Storing a payload of 29 bytes is the transition R144 describes. -/
theorem storedIn_storeSlot (s : State) (slot : Nat) {p : List Byte} {pay : Nat → Byte} (hp : p.length = 29)
    (hpay : ∀ k, k < 29 → p.getD k 0 = pay k) : storedIn s (s.storeSlot slot p) slot pay where
  bytes k hk := hpay k hk ▸ (readSlot_eq_some (storeSlot_readSlot_same s slot hp)).2 k hk
  otherBytes a ha := by rw [storeSlot_read s slot hp, if_neg (by omega)]
  bitSet := by simp [storeSlot_bit]
  otherBits x hx := by simp [storeSlot_bit, hx]
  count := rfl
  registers := ⟨rfl, rfl, rfl, rfl, rfl⟩

theorem storedIn_respond {s t : State} {slot : Nat} {pay : Nat → Byte} (h : storedIn s t slot pay) (r : Response) :
    storedIn s (t.respond r) slot pay :=
  { h with }

/-- Settles O22: the length is checked before the slot; past the checks the padded payload is stored. -/
theorem putStoresThePaddedPayload : Obligations.PutStoresThePaddedPayload := by
  unfold Obligations.PutStoresThePaddedPayload
  refine fun s seq p hs => ⟨withLength_gt s _, fun hp ha => ?_, fun hp ha hr => ?_, fun hp ha h1 h2 => ?_⟩
  · exact (withLength_le s _ hp).trans (withSlot_notAllocated seq _ ha)
  · exact (withLength_le s _ hp).trans (withSlot_range _ ha (hr.imp_left Nat.lt_one_iff.2))
  · have hstored := storedIn_storeSlot s seq.toNat (pad29_length hp) fun k _ => pad29_getD p k
    exact ⟨_, exec_put_ok hp ha h1 h2 (inv_depth hs ha h2), storedIn_respond hstored _, rfl, rfl⟩

/-! ## GET (R145) -/

theorem withStored_notAllocated {s : State} (seq : U16) (k : List Byte → Result) (ha : s.allocated = false) :
    s.withStored seq k = s.raise .notAllocated :=
  withSlot_notAllocated seq _ ha

theorem withStored_range {s : State} {seq : U16} (k : List Byte → Result) (ha : s.allocated = true)
    (hr : seq.toNat = 0 ∨ s.expectedCount.toNat < seq.toNat) : s.withStored seq k = s.raise .range :=
  withSlot_range _ ha (hr.imp_left Nat.lt_one_iff.2)

/-- Settles O23: a sound state holds a value in every byte of a slot whose bit is 1, so past the checks `GET` reads it. -/
theorem getAnswersTheStoredSlot : Obligations.GetAnswersTheStoredSlot := by
  unfold Obligations.GetAnswersTheStoredSlot
  refine fun s seq hs => ⟨withStored_notAllocated seq _, withStored_range _, fun ha h1 h2 hb => ?_,
    fun ha h1 h2 hb => ?_⟩
  · exact withStored_unwritten _ ha h1 h2 (inv_depth hs ha h2) hb
  · obtain ⟨q, hq⟩ := inv_readSlot hs hb
    exact ⟨q, withStored_ok _ ha h1 h2 (inv_depth hs ha h2) hb hq, readSlot_eq_some hq⟩

/-! ## TEST (R146) -/

theorem exec_test (seq : U16) (s : State) : exec (.test seq) s = execTest seq s := rfl

/-- Settles O24: past the checks of a named slot `TEST` answers the bit as a number. -/
theorem testAnswersTheBit : Obligations.TestAnswersTheBit := by
  unfold Obligations.TestAnswersTheBit
  refine fun s seq hs => ⟨fun ha => (exec_test seq s).trans (withSlot_notAllocated seq _ ha), fun ha hr => ?_,
    fun ha h1 h2 => ⟨if s.bit seq.toNat then 1 else 0, ?_, fun hb => if_pos hb,
      fun hb => if_neg (ne_true_of_eq_false hb)⟩⟩
  · exact (exec_test seq s).trans (withSlot_range _ ha (hr.imp_left Nat.lt_one_iff.2))
  · exact (exec_test seq s).trans (withSlot_ok _ ha h1 h2 (inv_depth hs ha h2))

/-! ## MISSING (R147) -/

/-- The ids of `1..c` whose bit is 0, in the order `MISSING` lists them. -/
def State.missingIds (s : State) (c : Nat) : List Nat := (slotIds c).filter fun slot => !s.bit slot

theorem mem_missingIds (s : State) (c x : Nat) : x ∈ s.missingIds c ↔ 1 ≤ x ∧ x ≤ c ∧ s.bit x = false := by
  simp [State.missingIds, mem_slotIds, and_assoc]

theorem missingIds_sorted (s : State) (c : Nat) : (s.missingIds c).Pairwise fun x y => x < y :=
  (slotIds_sorted c).filter _

theorem missingIds_length_le (s : State) (c : Nat) : (s.missingIds c).length ≤ c :=
  (List.length_filter_le _ _).trans_eq (slotIds_length c)

/-- Slot numbers as `MISSING` lists them, two bytes each. -/
def slotBytes (ids : List Nat) : List Byte := ids.flatMap fun slot => bytesLe16 (BitVec.ofNat 16 slot)

theorem slotBytes_eq (ids : List Nat) : slotBytes ids = (ids.map (BitVec.ofNat 16)).flatMap bytesLe16 :=
  (List.flatMap_map _ _ _).symm

theorem slotBytes_length (ids : List Nat) : (slotBytes ids).length = 2 * ids.length := by
  rw [slotBytes_eq, ids_bytes_length, List.length_map]

/-- The `j`-th pair of bytes is the `j`-th slot number, which fits 16 bits. -/
theorem slotBytes_num {ids : List Nat} {j : Nat} (hids : ∀ x ∈ ids, x < 65536) (hj : j < ids.length) :
    num (slotBytes ids) (2 * j) + 256 * num (slotBytes ids) (2 * j + 1) = ids.getD j 0 := by
  have hfit : ids[j] < 65536 := hids _ (List.getElem_mem hj)
  rw [slotBytes_eq, ids_bytes_num, List.length_map, if_pos hj, List.getD_eq_getElem _ _ (by simpa using hj),
    List.getElem_map, BitVec.toNat_ofNat, Nat.mod_eq_of_lt hfit, List.getD_eq_getElem _ _ hj]

theorem exec_missing (count : U16) (s : State) : exec (.missing count) s = execMissing count s := rfl

theorem answers_missing {s : State} {count : U16} (hs : s.Inv) (ha : s.allocated = true)
    (hc : count.toNat ≤ s.expectedCount.toNat) :
    answers (.missing count) s { r := BitVec.ofNat 32 (s.missingIds count.toNat).length
                                 q := slotBytes (s.missingIds count.toNat) } :=
  (exec_missing count s).trans (withCount_ok _ ha hc (inv_depth hs ha hc))

/-- Settles O25: what `MISSING` lists is `1..count` filtered, so it is sorted, and its numbers fit their fields. -/
theorem missingListsTheUnsetIds : Obligations.MissingListsTheUnsetIds := by
  unfold Obligations.MissingListsTheUnsetIds
  refine fun s count hs => ⟨fun ha => (exec_missing count s).trans (withCount_notAllocated count _ ha),
    fun ha hr => (exec_missing count s).trans (withCount_range _ ha hr), fun ha hc => ?_⟩
  have hcount := count.isLt
  have hlen := missingIds_length_le s count.toNat
  refine ⟨s.missingIds count.toNat, _, _, answers_missing hs ha hc, missingIds_sorted s _, mem_missingIds s _, ?_,
    slotBytes_length _, fun j => slotBytes_num fun x hx => ?_⟩
  · rw [BitVec.toNat_ofNat, Nat.mod_eq_of_lt (by omega)]
  · have := (mem_missingIds s _ x).1 hx
    omega

/-! ## ASSEMBLE (R148) -/

theorem assembleTail_last {s : State} {h : Nat} (hN : h = s.expectedCount.toNat) :
    assembleTail s h = lastLen s.fileSize s.expectedCount :=
  if_pos hN

theorem assembleTail_inner {s : State} {h : Nat} (hN : h < s.expectedCount.toNat) : assembleTail s h = 29 :=
  if_neg hN.ne

theorem exec_assemble (h : U16) (s : State) : exec (.assemble h) s = execAssemble h s := rfl

section assemble

variable {s : State} {h : U16} (hs : s.Inv) (ha : s.allocated = true) (hN : h.toNat ≤ s.expectedCount.toNat)

include hs ha hN

theorem refusedWith_assemble_incomplete (hgap : ∃ x, 1 ≤ x ∧ x ≤ h.toNat ∧ s.bit x = false) :
    refusedWith (.assemble h) s .incomplete := by
  have hnot : ¬ (slotIds h.toNat).all s.bit = true := fun hall => by
    obtain ⟨x, h1, h2, hb⟩ := hgap
    exact Bool.false_ne_true (hb.symm.trans ((slotIds_all_bit s h.toNat).1 hall x h1 h2))
  rw [refusedWith, exec_assemble, execAssemble, withCount_ok _ ha hN (inv_depth hs ha hN), if_neg hnot]
  rfl

variable (hall : ∀ x, 1 ≤ x → x ≤ h.toNat → s.bit x = true)

include hall

theorem answers_assemble_zero (h0 : h.toNat = 0) : answers (.assemble h) s {} := by
  rw [answers, exec_assemble, execAssemble, withCount_ok _ ha hN (inv_depth hs ha hN),
    if_pos ((slotIds_all_bit s h.toNat).2 hall), if_pos h0]
  rfl

/-- Over set slots `ASSEMBLE` answers one run of the RAM, from slot 1 to the tail of slot `h`. -/
theorem answers_assemble_pos (h1 : 1 ≤ h.toNat) :
    ∃ q, answers (.assemble h) s { r := BitVec.ofNat 32 q.length, q := q }
      ∧ Memory.readBytes s.mem (slotAddr 1) (payloadWidth * (h.toNat - 1) + assembleTail s h.toNat) = some q := by
  have hrun : payloadWidth * (h.toNat - 1) + assembleTail s h.toNat ≤ 29 * h.toNat := by
    have htail := (inv_assembleTail hs ha h1).2
    simp only [payloadWidth]
    omega
  obtain ⟨q, hq⟩ := inv_assemble_run hs hall hrun
  have hlen := ((memory_readBytes_eq_some _ _ _ _).1 hq).1
  refine ⟨q, ?_, hq⟩
  rw [answers, exec_assemble, execAssemble, withCount_ok _ ha hN (inv_depth hs ha hN),
    if_pos ((slotIds_all_bit s h.toNat).2 hall), if_neg (Nat.ne_of_gt h1)]
  simp only [hq, hlen]
  rfl

end assemble

/-- Settles O26: slots are adjacent in the RAM, so byte `k` of slot `x` stands at place `29*(x-1) + k` of the one run
`ASSEMBLE` reads; for `h = 0` there is no run. -/
theorem assembleConcatenatesTheSlots : Obligations.AssembleConcatenatesTheSlots := by
  unfold Obligations.AssembleConcatenatesTheSlots
  refine fun s h hs => ⟨fun ha => (exec_assemble h s).trans (withCount_notAllocated h _ ha),
    fun ha hr => (exec_assemble h s).trans (withCount_range _ ha hr), refusedWith_assemble_incomplete hs,
    fun ha hN hall => ?_⟩
  obtain h0 | h1 := Nat.eq_zero_or_pos h.toNat
  · exact ⟨[], assembleTail s h.toNat, answers_assemble_zero hs ha hN hall h0, fun _ => rfl, assembleTail_last,
      assembleTail_inner, fun h1 => by omega, fun x k hx hxh => by omega⟩
  · obtain ⟨q, hans, hq⟩ := answers_assemble_pos hs ha hN hall h1
    obtain ⟨hlen, hread⟩ := (memory_readBytes_eq_some _ _ _ _).1 hq
    refine ⟨q, assembleTail s h.toNat, hans, fun h0 => by omega, assembleTail_last, assembleTail_inner, fun _ => hlen,
      fun x k hx _ _ hk => ?_⟩
    rw [← hread _ (hlen ▸ hk), slotAddr, show 29 * x + k = 29 * 1 + (29 * (x - 1) + k) from by omega]

/-! ## STAT (R149) -/

/-- The last slot of a sound state holds at most 29 bytes, none when there is no slot. -/
theorem lastLen_le {s : State} (hs : s.Inv) : lastLen s.fileSize s.expectedCount ≤ 29 := by
  obtain h0 | h1 := Nat.eq_zero_or_pos s.expectedCount.toNat
  · exact (if_pos h0).trans_le (Nat.zero_le 29)
  · have ha : s.allocated = true := by
      by_contra hn
      have := (hs.sound.empty (eq_false_of_ne_true hn)).2.1
      simp [this] at h1
    exact (inv_lastLen hs ha h1).2.2

/-- Settles O27: the fields of the answer are the little-endian bytes of the registers, and only the byte for the length
of the last slot can narrow, in a state that is not sound. -/
theorem statAnswersTheRegisters : Obligations.StatAnswersTheRegisters := by
  unfold Obligations.StatAnswersTheRegisters
  intro s
  have hlast : num s.statBytes 9 = lastLen s.fileSize s.expectedCount % 256 := BitVec.toNat_ofNat _ _
  refine ⟨s.statBytes, rfl, rfl, ?_, ?_, (toNat_eq_lo8_hi8 _).symm, (toNat_eq_lo8_hi8 _).symm, hlast, fun hs => ?_,
    BitVec.toNat_setWidth_of_le (b := s.events) (by decide)⟩
  · exact apply_ite BitVec.toNat _ _ _
  · exact (le32_toNat _ _ _ _).symm.trans (congrArg BitVec.toNat (le32_bytesLe32 s.fileSize))
  · have hle := lastLen_le hs
    rw [hlast, Nat.mod_eq_of_lt (by omega)]
    exact ⟨rfl, hle⟩

end Sys2Proof.Machine
end

section
/-! The data path (43_datapath.md R171 to R173): what the three composite operations do once their checks are passed, and the
refusals in their order. -/

namespace Sys2Proof.Machine

open Sys2Proof.Claims

/-! ## TX_DATA (R171) -/

theorem exec_txData_ok {s : State} {seq : U16} {p : List Byte} (hp : p.length ≤ payloadWidth) (ha : s.allocated = true)
    (h1 : 1 ≤ seq.toNat) (h2 : seq.toNat ≤ s.expectedCount.toNat) (h3 : seq.toNat < s.cfg.storeDepth) :
    exec (.txData seq p) s
      = .next ((s.storeSlot seq.toNat (pad29 p)).respond { q := dataFrame seq (pad29 p) }) :=
  (withLength_le s _ hp).trans (withSlot_ok _ ha h1 h2 h3)

/-- Settles O33: the checks are those of `PUT`; past them one padded payload is both stored and framed. -/
theorem txDataStoresAndAnswersTheFrame : Obligations.TxDataStoresAndAnswersTheFrame := by
  unfold Obligations.TxDataStoresAndAnswersTheFrame
  refine fun s seq p hs => ⟨withLength_gt s _, fun hp ha => ?_, fun hp ha hr => ?_, fun hp ha h1 h2 => ?_⟩
  · exact (withLength_le s _ hp).trans (withSlot_notAllocated seq _ ha)
  · exact (withLength_le s _ hp).trans (withSlot_range _ ha (hr.imp_left Nat.lt_one_iff.2))
  · have hlen : (pad29 p).length = 29 := pad29_length hp
    have hpay : ∀ k, k < 29 → (pad29 p).getD k 0 = padded p k := fun k _ => pad29_getD p k
    exact ⟨_, _, exec_txData_ok hp ha h1 h2 (inv_depth hs ha h2),
      storedIn_respond (storedIn_storeSlot s seq.toNat hlen hpay) _, rfl, rfl, isDataFrame_dataFrame seq hlen hpay⟩

/-! ## RETX (R172) -/

/-- Settles O34: a sound state holds a value in every byte of a slot whose bit is 1, so past the checks the frame carries
the bytes of the slot. -/
theorem retxAnswersTheFrameOfTheSlot : Obligations.RetxAnswersTheFrameOfTheSlot := by
  unfold Obligations.RetxAnswersTheFrameOfTheSlot
  refine fun s seq hs => ⟨withStored_notAllocated seq _, withStored_range _, fun ha h1 h2 hb => ?_,
    fun ha h1 h2 hb => ?_⟩
  · exact withStored_unwritten _ ha h1 h2 (inv_depth hs ha h2) hb
  · obtain ⟨p, hp⟩ := inv_readSlot hs hb
    obtain ⟨hlen, hread⟩ := readSlot_eq_some hp
    exact ⟨dataFrame seq p, fun k => p.getD k 0, withStored_ok _ ha h1 h2 (inv_depth hs ha h2) hb hp,
      isDataFrame_dataFrame seq hlen fun _ _ => rfl, hread⟩

/-! ## RX_FRAME (R173) -/

theorem refusedWith_rxFrame (s : State) {f : List Byte} (h : f.length ≠ 32) : refusedWith (.rxFrame f) s .badLen :=
  withLength_badFrame s _ h

theorem exec_rxFrame (s : State) {f : List Byte} (h : f.length = 32) :
    exec (.rxFrame f) s = receivePacket (decodePacket s.cfg.tags f) s :=
  withLength_frame s _ h

/-- Control frames are handed back to the host. -/
theorem receivePacket_control {pkt : Packet} (s : State) (hjunk : ∀ g, pkt ≠ .junk g)
    (hdata : ∀ seq p ck ok, pkt ≠ .data seq p ck ok) :
    receivePacket pkt s = s.done { outcome := some .control, pkt := some pkt } := by
  cases pkt with
  | junk g => exact absurd rfl (hjunk g)
  | data seq p ck ok => exact absurd rfl (hdata seq p ck ok)
  | start _ | retransmitRequest _ _ | allClear | prematureEnd | endPacket _ => rfl

/-- A frame that decodes as data has a nonzero low byte of its id (30_encoding.md R84). -/
theorem byteAt_zero_ne_of_decodePacket_data {t : Tags} {f p : List Byte} {seq : U16} {ck : Byte} {ok : Bool}
    (h : decodePacket t f = .data seq p ck ok) : byteAt f 0 ≠ 0x00#8 := by
  intro h0
  rw [decodePacket, if_neg (not_not_intro h0)] at h
  repeat' split at h
  all_goals cases h

/-- So a received data frame never names id 0. -/
theorem decodePacket_data_id_pos {t : Tags} {f p : List Byte} {seq : U16} {ck : Byte} {ok : Bool}
    (h : decodePacket t f = .data seq p ck ok) : 1 ≤ seq.toNat := by
  have h0 := byteAt_zero_ne_of_decodePacket_data h
  rw [decodePacket_data t h0] at h
  cases h
  have hlow : (byteAt f 0).toNat ≠ 0 := mt (byteAt_eq_zero_iff f 0).2 h0
  rw [le16_toNat]
  omega

section data

variable {s : State} {seq : U16} (p : List Byte) {ok : Bool} (pkt : Packet) (ha : s.allocated = true)
  (h1 : 1 ≤ seq.toNat) (h2 : seq.toNat ≤ s.expectedCount.toNat) (h3 : seq.toNat < s.cfg.storeDepth)

include ha h1 h2 h3

theorem receiveData_dropped (hok : ok = false) (hdrop : s.cfg.policy = .drop) :
    receiveData seq p ok pkt s
      = (s.noteChecksum ok).done { outcome := some .cksumDropped, pkt := some pkt } := by
  rw [receiveData, withSlot_ok _ ha h1 h2 h3, if_pos ⟨hok, hdrop⟩]

variable (hkeep : ok = true ∨ s.cfg.policy = .inform)

include hkeep

/-- A data frame that the policy keeps goes on to the bit of its slot. -/
theorem receiveData_kept :
    receiveData seq p ok pkt s =
      if s.bit seq.toNat then
        ((s.noteChecksum ok).setEvent dupSeen).done { outcome := some .duplicate, pkt := some pkt }
      else ((s.noteChecksum ok).storeSlot seq.toNat p).done { outcome := some .stored, pkt := some pkt } := by
  have hnot : ¬ (ok = false ∧ s.cfg.policy = .drop) := by
    rintro ⟨rfl, hdrop⟩
    simp [hdrop] at hkeep
  rw [receiveData, withSlot_ok _ ha h1 h2 h3, if_neg hnot]

theorem receiveData_duplicate (hb : s.bit seq.toNat = true) :
    receiveData seq p ok pkt s
      = ((s.noteChecksum ok).setEvent dupSeen).done { outcome := some .duplicate, pkt := some pkt } :=
  (receiveData_kept p pkt ha h1 h2 h3 hkeep).trans (if_pos hb)

theorem receiveData_stored (hb : s.bit seq.toNat = false) :
    receiveData seq p ok pkt s
      = ((s.noteChecksum ok).storeSlot seq.toNat p).done { outcome := some .stored, pkt := some pkt } :=
  (receiveData_kept p pkt ha h1 h2 h3 hkeep).trans (if_neg (ne_true_of_eq_false hb))

end data

/-- A mismatch sets its flag before the duplicate sets its own: the flags set are one number. -/
theorem noteChecksum_duplicate (s : State) (ok : Bool) :
    (s.noteChecksum ok).setEvent dupSeen
      = { s with events := s.events ||| (if ok = true then 0b010#3 else 0b110#3) } := by
  rw [noteChecksum_eq, setEvent_setEvent]
  cases ok with
  | false => rfl
  | true => rfl

/-- Setting flags first does not show in what a store does to the other fields. -/
theorem storedIn_of_setEvent {s t : State} {f : BitVec 3} {slot : Nat} {pay : Nat → Byte}
    (h : storedIn (s.setEvent f) t slot pay) : storedIn s t slot pay :=
  { h with }

/-- The store a kept new frame makes, with the mismatch flag where the checksum does not match. -/
theorem storedIn_noteChecksum (s : State) (ok : Bool) (slot : Nat) {p : List Byte} (hp : p.length = 29) :
    storedIn s ((s.noteChecksum ok).storeSlot slot p) slot (fun k => p.getD k 0) := by
  have h := storedIn_storeSlot (s.noteChecksum ok) slot hp fun _ _ => rfl
  rw [noteChecksum_eq] at h ⊢
  exact storedIn_of_setEvent h

theorem noteChecksum_events (s : State) (ok : Bool) :
    (s.noteChecksum ok).events = s.events ||| (if ok = true then 0b000#3 else 0b100#3) :=
  congrArg State.events (noteChecksum_eq s ok)

/-- Settles O36: the packet decides the branch; a data frame is never refused for id 0, as its id has a nonzero low byte,
and past the range check the policy and the bit of its slot decide. -/
theorem rxFrameFollowsTheReceiveRule : Obligations.RxFrameFollowsTheReceiveRule := by
  unfold Obligations.RxFrameFollowsTheReceiveRule
  refine fun s f hs => ⟨refusedWith_rxFrame s, fun hf => ⟨_, answers_decode s hf, fun g hg => ?_,
    fun hjunk hdata => (exec_rxFrame s hf).trans (receivePacket_control s hjunk hdata), fun seq pay ck ok hd => ?_⟩⟩
  · rw [exec_rxFrame s hf, hg]
    rfl
  · have hexec : exec (.rxFrame f) s = receiveData seq pay ok (decodePacket s.cfg.tags f) s := by
      rw [exec_rxFrame s hf, hd]
      rfl
    have h1 : 1 ≤ seq.toNat := decodePacket_data_id_pos hd
    have hlen : pay.length = 29 := by rw [decodePacket_payload hd, framePayload_length hf]
    refine ⟨fun ha => hexec.trans (withSlot_notAllocated seq _ ha),
      fun ha hr => hexec.trans (withSlot_range _ ha (.inr hr)),
      fun ha h2 => ⟨fun hok hdrop => ?_, fun hkeep hb => ?_, fun hkeep hb => ?_⟩⟩
    · subst hok
      exact hexec.trans (receiveData_dropped pay _ ha h1 h2 (inv_depth hs ha h2) rfl hdrop)
    · rw [hexec, receiveData_duplicate pay _ ha h1 h2 (inv_depth hs ha h2) hkeep hb, noteChecksum_duplicate]
      rfl
    · exact ⟨_, hexec.trans (receiveData_stored pay _ ha h1 h2 (inv_depth hs ha h2) hkeep hb),
        storedIn_respond (storedIn_noteChecksum s ok _ hlen) _, noteChecksum_events s ok, rfl⟩

end Sys2Proof.Machine
end

section
/-! Errors (60_exceptions.md R190): what a refused operation leaves behind is the error response on the old state. -/

namespace Sys2Proof.Machine

/-- The port of an error: the status code, and zeros elsewhere (R190). -/
theorem responsePort_errorResponse (st : Status) :
    responsePort (errorResponse st) = { status := statusCode st, outcome := 0, r := 0, pkt := {}, q := [] } := rfl

/-- No operation reads the response an error leaves, so none can tell that the error happened. -/
theorem exec_refuse (i : Instr) (s : State) (st : Status) : exec i (s.refuse st) = exec i s :=
  exec_respond i s (errorResponse st)

/-- An operation that ends with another status than `OK` was refused with that status: an operation that had an effect
answers `OK`. -/
theorem exec_eq_refuse {i : Instr} {s t : State} (h : exec i s = .next t) (hst : t.response.status ≠ .ok) :
    t = s.refuse t.response.status := by
  obtain ⟨st, -, -, rfl⟩ | ⟨u, -, r, hr, rfl⟩ := exec_outcomes h
  · rfl
  · exact absurd hr hst

/-- Settles O45: a refused operation leaves the old state with the error response on it, which the next operation does
not read. -/
theorem refusedOperationsChangeNothing : Obligations.RefusedOperationsChangeNothing := by
  unfold Obligations.RefusedOperationsChangeNothing
  intro i s t h hst
  obtain ⟨st, rfl⟩ : ∃ st, t = s.refuse st := ⟨_, exec_eq_refuse h hst⟩
  exact ⟨rfl, responsePort_errorResponse st, fun j => exec_refuse j s st⟩

end Sys2Proof.Machine
end

section
/-! The reset input (70_reset_and_hazards.md R220): what the step does with it, between operations and during one, is what
`FREE` does. -/

namespace Sys2Proof.Machine

theorem step_of_reset {s : State} {rest : List HostEvent} (hin : s.input = .reset :: rest) :
    step s = .next { s with input := rest }.hardReset := by
  simp only [step, State.fetch, hin]

/-- The operation that a reset meets leaves nothing behind (log 9). -/
theorem step_of_resetDuring {s : State} {w : PortWord} {rest : List HostEvent}
    (hin : s.input = .resetDuring w :: rest) : step s = .next { s with input := rest }.hardReset := by
  simp only [step, State.fetch, hin]

/-- `FREE` is the reset as an operation: it also answers the response port at 0. -/
theorem exec_free (s : State) : exec .free s = .next s.hardReset := rfl

/-- Settles O2: either reset event ends in the reset of the state behind it, which is that of `FREE` but for the input. -/
theorem resetAndFreeEndInTheSameState : Obligations.ResetAndFreeEndInTheSameState := by
  unfold Obligations.ResetAndFreeEndInTheSameState
  intro s w rest
  have hreset : step { s with input := .reset :: rest } = .next { s with input := rest }.hardReset := step_of_reset rfl
  have hduring : step { s with input := .resetDuring w :: rest } = .next { s with input := rest }.hardReset :=
    step_of_resetDuring rfl
  exact ⟨hduring.trans hreset.symm, _, _, hreset, exec_free s, rfl, rfl, rfl, rfl, rfl, rfl, rfl⟩

end Sys2Proof.Machine
end

section
/-! Encodings (30_encoding.md R72 to R92): the decoder reads back what the encoder writes, frame by frame and command by
command; what that says of the frame rows, of the codec operations, and of the ids whose low byte is the control marker. -/

namespace Sys2Proof.Machine

open Sys2Proof.Claims

/-! ## Frames are read back (R108) -/

theorem decodePacket_startFrame (t : Tags) (z : U32) : decodePacket t (startFrame t z) = .start z :=
  (decodePacket_start (f := startFrame t z) (controlFrame_zero _ _) (controlFrame_one _ _)).trans
    (congrArg Packet.start (le32_bytesLe32 z))

theorem decodePacket_junkFrame {t : Tags} (ht : t.distinct) {tag : Byte} (hs : tag ≠ t.start) (ha : tag ≠ t.allClear)
    (hp : tag ≠ t.prematureEnd) (he : tag ≠ t.endTag) : decodePacket t (junkFrame tag) = .junk tag := by
  have h0 : byteAt (junkFrame tag) 0 = 0 := controlFrame_zero _ _
  have h1 : byteAt (junkFrame tag) 1 = tag := controlFrame_one _ _
  by_cases hr : tag = t.retransmitRequest
  · rw [decodePacket_request_junk h0 ht (h1.trans hr) (show 13 < 255 by decide), h1]
  · rw [decodePacket_junk h0 (by rwa [h1]) (by rwa [h1]) (by rwa [h1]) (by rwa [h1]) (by rwa [h1]), h1]

section distinct

variable {t : Tags} (ht : t.distinct)

include ht

theorem decodePacket_requestFrame (run : U16) {ids : List U16} (h : ids.length ≤ idsPerRequest) :
    decodePacket t (requestFrame t run ids) = .retransmitRequest run ids := by
  have hcount : (byteAt (requestFrame t run ids) 2).toNat = ids.length := by
    have hlt : ids.length < 256 := Nat.lt_of_le_of_lt h (by decide)
    rw [requestFrame_count, BitVec.toNat_ofNat, Nat.mod_eq_of_lt hlt]
  obtain ⟨hlo, hhi⟩ := requestFrame_run t run ids
  rw [decodePacket_request (f := requestFrame t run ids) (controlFrame_zero _ _) ht (controlFrame_one _ _) (hcount ▸ h),
    hcount, hlo, hhi, le16_lo8_hi8, frameIds_requestFrame]

theorem decodePacket_allClearFrame : decodePacket t (allClearFrame t) = .allClear :=
  decodePacket_allClear (controlFrame_zero _ _) ht (controlFrame_one _ _)

theorem decodePacket_prematureEndFrame : decodePacket t (prematureEndFrame t) = .prematureEnd :=
  decodePacket_prematureEnd (controlFrame_zero _ _) ht (controlFrame_one _ _)

theorem decodePacket_endFrame (n : U16) : decodePacket t (endFrame t n) = .endPacket n :=
  (decodePacket_end (f := endFrame t n) (controlFrame_zero _ _) ht (controlFrame_one _ _)).trans
    (congrArg Packet.endPacket (le16_lo8_hi8 n))

end distinct

/-! ## The frame rows (log 4) -/

/-- The packet a frame row stands for; a command stands for none. -/
def rowPacket : Instr → Option Packet
  | .frameData seq p ck => some (.data seq p ck (ckMatches p ck))
  | .frameStart z => some (.start z)
  | .frameRetransmitRequest run ids => some (.retransmitRequest run ids)
  | .frameAllClear => some .allClear
  | .framePrematureEnd => some .prematureEnd
  | .frameEnd n => some (.endPacket n)
  | .frameJunk g => some (.junk g)
  | _ => none

/-- The frame of a row has 32 bytes and decodes as the row's packet. -/
theorem rowPacket_of_encode {t : Tags} {i : Instr} {f : List Byte} (ht : t.distinct) (hi : i.wf t = true)
    (hf : encode t i = .frame f) : f.length = 32 ∧ rowPacket i = some (decodePacket t f) := by
  cases i with
  | frameData seq p ck =>
    cases hf
    obtain ⟨hseq, hp⟩ : lo8 seq ≠ 0#8 ∧ p.length = payloadWidth := by simpa [Instr.wf] using hi
    exact ⟨dataFrameWith_length seq ck hp, congrArg some (decodePacket_dataFrameWith t seq ck hp hseq).symm⟩
  | frameStart z =>
    cases hf
    exact ⟨controlFrame_length _ (show 4 ≤ 29 by decide), congrArg some (decodePacket_startFrame t z).symm⟩
  | frameRetransmitRequest run ids =>
    cases hf
    have hids : ids.length ≤ idsPerRequest := of_decide_eq_true hi
    exact ⟨requestFrame_length t run hids, congrArg some (decodePacket_requestFrame ht run hids).symm⟩
  | frameAllClear =>
    cases hf
    exact ⟨controlFrame_length _ (Nat.zero_le 29), congrArg some (decodePacket_allClearFrame ht).symm⟩
  | framePrematureEnd =>
    cases hf
    exact ⟨controlFrame_length _ (Nat.zero_le 29), congrArg some (decodePacket_prematureEndFrame ht).symm⟩
  | frameEnd n =>
    cases hf
    exact ⟨controlFrame_length _ (show 2 ≤ 29 by decide), congrArg some (decodePacket_endFrame ht n).symm⟩
  | frameJunk g =>
    cases hf
    obtain ⟨⟨⟨hs, ha⟩, hp⟩, he⟩ :
        ((g ≠ t.start ∧ g ≠ t.allClear) ∧ g ≠ t.prematureEnd) ∧ g ≠ t.endTag := by simpa [Instr.wf] using hi
    exact ⟨controlFrame_length _ (show 1 ≤ 29 by decide), congrArg some (decodePacket_junkFrame ht hs ha hp he).symm⟩
  | _ => cases hf

theorem packetRow_of_rowPacket {i : Instr} {pkt : Packet} (h : rowPacket i = some pkt) : packetRow pkt = i := by
  cases i <;> cases h <;> rfl

theorem exec_of_rowPacket {i : Instr} {pkt : Packet} (h : rowPacket i = some pkt) (s : State) :
    answers i s { pkt := some pkt } := by
  cases i <;> cases h <;> rfl

/-- The decoder reads a frame row back from its frame. -/
theorem decode_of_encode_frame {t : Tags} {i : Instr} {f : List Byte} (ht : t.distinct) (hi : i.wf t = true)
    (hf : encode t i = .frame f) : decode t (encode t i) = .instr i := by
  obtain ⟨hlen, hrow⟩ := rowPacket_of_encode ht hi hf
  rw [hf]
  exact (if_pos hlen).trans (congrArg Decoded.instr (packetRow_of_rowPacket hrow))

/-! ## Commands are read back (R90, R91) -/

/-- A 16-bit operand is read back from the scalar that carries it. -/
theorem withU16_scalar16 {c : Command} {v : U16} (k : U16 → Instr) (ha : c.a = scalar16 v) :
    c.withU16 k = .instr (k v) := by
  have hv : c.a.toNat = v.toNat := by rw [ha, scalar16_toNat]
  rw [withU16_of_lt k (hv ▸ v.isLt), hv, BitVec.ofNat_toNat, BitVec.setWidth_eq]

/-- The id operand of `ENC_RREQ` is read back from the lanes that carry it. -/
theorem idOperand_of_ids {c : Command} {ids : List U16} (hn : c.n = BitVec.ofNat 8 ids.length)
    (hd : c.d = ids.flatMap bytesLe16) (hlen : ids.length ≤ idsPerRequest) : c.idOperand = ids := by
  simp only [idsPerRequest] at hlen
  have hcount : c.n.toNat = ids.length := by rw [hn, BitVec.toNat_ofNat, Nat.mod_eq_of_lt (by omega)]
  refine List.ext_getElem (by simp [Command.idOperand, hcount]) fun j hj hj' => ?_
  obtain ⟨hlo, hhi⟩ := ids_bytes_getD ids j hj'
  have hlane : ∀ k, k < 26 → c.lane k = (ids.flatMap bytesLe16).getD k 0 := fun k hk => by
    rw [Command.lane, if_pos (by simp only [maxCkLen]; omega), hd]
  simp only [Command.idOperand, List.getElem_map, List.getElem_range]
  rw [hlane _ (by omega), hlane _ (by omega), hlo, hhi, le16_lo8_hi8, List.getD_eq_getElem _ _ hj']

/-- A scalar with a byte operand is read back. -/
theorem withU16_byteCommand (op : Byte) (v : U16) {p : List Byte} (k : U16 → List Byte → Instr)
    (hp : p.length ≤ maxCkLen) :
    (byteCommand op (scalar16 v) p).withU16 (fun x => k x (byteCommand op (scalar16 v) p).byteOperand)
      = .instr (k v p) := by
  rw [byteOperand_byteCommand op _ hp]
  exact withU16_scalar16 _ rfl

/-- A byte operand alone is read back. -/
theorem instr_byteOperand (op : Byte) {p : List Byte} (k : List Byte → Instr) (hp : p.length ≤ maxCkLen) :
    Decoded.instr (k (byteCommand op 0 p).byteOperand) = .instr (k p) := by
  rw [byteOperand_byteCommand op _ hp]

open Laws.EncodesToAPortWord in
/-- Settles O5: a frame row is read back through its packet; a command through its code, its scalar and its lanes. -/
theorem decodeUndoesEncode : Obligations.DecodeUndoesEncode := by
  unfold Obligations.DecodeUndoesEncode
  intro t i ht hi
  cases i with
  | frameData _ _ _ | frameStart _ | frameRetransmitRequest _ _ | frameAllClear | framePrematureEnd | frameEnd _
  | frameJunk _ => exact decode_of_encode_frame ht hi rfl
  | encStart _ | encAllclear | encPremend | alloc _ | free | stat => rfl
  | encEnd _ | get _ | test _ | missing _ | assemble _ | retx _ => exact withU16_scalar16 _ rfl
  | encData seq p | put seq p | txData seq p => exact withU16_byteCommand _ seq _ (payload_le_lanes hi)
  | decode f | verify f | rxFrame f => exact instr_byteOperand _ _ (frame_le_lanes hi)
  | fletcher8 bytes => exact instr_byteOperand _ _ (of_decide_eq_true hi)
  | encRreq run ids =>
    exact congrArg (fun l => Decoded.instr (.encRreq run l)) (idOperand_of_ids rfl rfl (of_decide_eq_true hi))

/-- Settles O8: both the row and `DECODE` of its frame answer the row's packet. -/
theorem frameRowsAnswerAsDecodeOfTheirFrame : Obligations.FrameRowsAnswerAsDecodeOfTheirFrame := by
  unfold Obligations.FrameRowsAnswerAsDecodeOfTheirFrame
  intro s i f ht hi hf
  obtain ⟨hlen, hrow⟩ := rowPacket_of_encode ht hi hf
  have hans := exec_of_rowPacket hrow s
  refine ⟨hans.trans (answers_decode s hlen).symm, _, hans, ?_⟩
  have hpkt : ∀ {pkt}, rowPacket i = some pkt → decodePacket s.cfg.tags f = pkt := fun h =>
    Option.some.inj (hrow.symm.trans h)
  exact ⟨fun _ _ _ h => hpkt (h ▸ rfl), fun _ h => hpkt (h ▸ rfl), fun _ _ h => hpkt (h ▸ rfl), fun h => hpkt (h ▸ rfl),
    fun h => hpkt (h ▸ rfl), fun _ h => hpkt (h ▸ rfl), fun _ h => hpkt (h ▸ rfl)⟩

/-! ## The round trip through the operations (R108) -/

theorem lo8_eq_zero_iff (seq : U16) : lo8 seq = 0#8 ↔ seq.toNat % 256 = 0 := by
  rw [← BitVec.toNat_inj, lo8_toNat]
  rfl

/-- A frame that fits is decoded as its packet. -/
theorem answers_decode_of_eq {s : State} {f : List Byte} {pkt : Packet} (hlen : f.length = 32)
    (hpkt : decodePacket s.cfg.tags f = pkt) : answers (.decode f) s { pkt := some pkt } :=
  hpkt ▸ answers_decode s hlen

/-- The data frame of a padded payload whose id has a nonzero low byte: its checksum matches. -/
theorem decodePacket_dataFrame (t : Tags) {seq : U16} {p : List Byte} (hseq : seq.toNat % 256 ≠ 0)
    (hp : p.length = payloadWidth) : decodePacket t (dataFrame seq p) = .data seq p (fletcher8 p) true := by
  rw [dataFrame, decodePacket_dataFrameWith t seq _ hp (mt (lo8_eq_zero_iff seq).1 hseq), ckMatches, beq_self_eq_true]

/-- Settles O12: each encoder answers the frame of its packet, which the decoder reads back. -/
theorem everyVariantRoundTrips : Obligations.EveryVariantRoundTrips := by
  unfold Obligations.EveryVariantRoundTrips
  intro s ht
  refine ⟨fun seq p hseq hp => ⟨_, answers_encData s seq hp, ?_⟩, fun z => ⟨_, rfl, ?_⟩, fun n => ⟨_, rfl, ?_⟩,
    fun run ids h => ⟨_, answers_encRreq s run h, ?_⟩, ⟨_, rfl, ?_⟩, ⟨_, rfl, ?_⟩⟩
  · exact answers_decode_of_eq (dataFrameWith_length seq _ (pad29_length hp))
      (decodePacket_dataFrame _ hseq (pad29_length hp))
  · exact answers_decode_of_eq (controlFrame_length _ (show 4 ≤ 29 by decide)) (decodePacket_startFrame _ z)
  · exact answers_decode_of_eq (controlFrame_length _ (show 2 ≤ 29 by decide)) (decodePacket_endFrame ht n)
  · exact answers_decode_of_eq (requestFrame_length _ run h) (decodePacket_requestFrame ht run h)
  · exact answers_decode_of_eq (controlFrame_length _ (Nat.zero_le 29)) (decodePacket_allClearFrame ht)
  · exact answers_decode_of_eq (controlFrame_length _ (Nat.zero_le 29)) (decodePacket_prematureEndFrame ht)

/-! ## Ids whose low byte is the control marker (70_reset_and_hazards.md R230) -/

/-- A byte of the payload field of the frame of a padded payload. -/
theorem dataFrame_pad29_byte (seq : U16) {p : List Byte} (hp : p.length ≤ payloadWidth) {k : Nat} (hk : k < 29) :
    byteAt (dataFrame seq (pad29 p)) (2 + k) = padded p k :=
  (dataFrameWith_byte seq _ (pad29_length hp) hk).trans (pad29_getD p k)

theorem hi8_eq_iff (seq : U16) (tag : Byte) : hi8 seq = tag ↔ seq.toNat / 256 = tag.toNat := by
  rw [← BitVec.toNat_inj, hi8_toNat]

/-- A frame with the control marker never decodes as data. -/
theorem decodePacket_ne_data {t : Tags} {f : List Byte} (h0 : byteAt f 0 = 0x00#8) (seq : U16) (p : List Byte)
    (ck : Byte) (ok : Bool) : decodePacket t f ≠ .data seq p ck ok :=
  fun h => byteAt_zero_ne_of_decodePacket_data h h0

/-- Settles O13: the low byte of the id is the control marker and its high byte the tag, so the frame decodes as a control
frame whose fields are bytes of the padded payload. -/
theorem zeroLowByteIdsDecodeAsControl : Obligations.ZeroLowByteIdsDecodeAsControl := by
  unfold Obligations.ZeroLowByteIdsDecodeAsControl
  intro s seq p ht hseq hp
  have h0 : byteAt (dataFrame seq (pad29 p)) 0 = 0x00#8 :=
    (dataFrameWith_zero seq _ _).trans ((lo8_eq_zero_iff seq).2 hseq)
  have h1 : byteAt (dataFrame seq (pad29 p)) 1 = hi8 seq := dataFrameWith_one seq _ _
  have htag {tag : Byte} (h : seq.toNat / 256 = tag.toNat) : byteAt (dataFrame seq (pad29 p)) 1 = tag :=
    h1.trans ((hi8_eq_iff seq tag).2 h)
  have hne {tag : Byte} (h : seq.toNat / 256 ≠ tag.toNat) : byteAt (dataFrame seq (pad29 p)) 1 ≠ tag :=
    h1 ▸ mt (hi8_eq_iff seq tag).1 h
  have hbyte {k : Nat} (hk : k < 29) : byteAt (dataFrame seq (pad29 p)) (2 + k) = padded p k :=
    dataFrame_pad29_byte seq hp hk
  have hb0 := hbyte (k := 0) (by decide)
  have hb1 := hbyte (k := 1) (by decide)
  have hb2 := hbyte (k := 2) (by decide)
  have hb3 := hbyte (k := 3) (by decide)
  simp only [Nat.reduceAdd] at hb0 hb1 hb2 hb3
  refine ⟨_, _, answers_encData s seq hp, answers_decode s (dataFrameWith_length seq _ (pad29_length hp)),
    decodePacket_ne_data h0, fun h => ⟨_, decodePacket_start h0 (htag h), ?_⟩, fun h hc => ?_,
    fun h hc => ⟨_, _, decodePacket_request h0 ht (htag h) (by rwa [hb0]), ?_, ?_, fun j hj => ?_⟩,
    fun h => decodePacket_allClear h0 ht (htag h), fun h => decodePacket_prematureEnd h0 ht (htag h),
    fun h => ⟨_, decodePacket_end h0 ht (htag h), ?_⟩, fun h => ?_⟩
  · rw [le32_toNat, hb0, hb1, hb2, hb3]
  · rw [decodePacket_request_junk h0 ht (htag h) (by rwa [hb0]), htag h]
  · rw [le16_toNat, hb1, hb2]
  · rw [frameIds_length, hb0]
  · rw [frameIds_length, hb0] at hj
    rw [frameIds_getD _ (by rwa [hb0]), le16_toNat, show 5 + 2 * j = 2 + (3 + 2 * j) from by omega,
      show 6 + 2 * j = 2 + (4 + 2 * j) from by omega, hbyte (by omega), hbyte (by omega)]
  · rw [le16_toNat, hb0, hb1]
  · simp only [List.mem_cons, List.not_mem_nil, or_false, not_or] at h
    obtain ⟨hs, hr, ha, hpe, he⟩ := h
    rw [decodePacket_junk h0 (hne hs) (hne hr) (hne ha) (hne hpe) (hne he), h1, hi8]

end Sys2Proof.Machine
end

section
/-! What every step keeps (10_state.md R22 to R31), each from the list of effects an instruction can have: the invariant, the
parameters, the form of the lists, the sticky flags, the session registers, and every slot but the one that is named. -/

namespace Sys2Proof.Machine

open Sys2Proof.Claims

/-! ## The step, reset and waiting -/

theorem step_of_waiting {s : State} (hin : s.input = []) : step s = .next s := by
  simp only [step, State.fetch, hin]

/-- Settles O1: after the reset input the block is the hard reset of the state behind the event. -/
theorem resetLeavesTheEmptyState : Obligations.ResetLeavesTheEmptyState := by
  unfold Obligations.ResetLeavesTheEmptyState
  exact ⟨fun _ => rfl, rfl, rfl, rfl, rfl, rfl,
    fun s rest hin => ⟨_, step_of_reset hin, rfl, rfl, rfl, rfl, rfl, fun _ => rfl, rfl, rfl, rfl⟩⟩

/-- Settles O3: the three ways a step takes up its input when no reset is asserted. -/
theorem stepRunsTheDecodedInstruction : Obligations.StepRunsTheDecodedInstruction := by
  unfold Obligations.StepRunsTheDecodedInstruction
  exact ⟨fun _ _ _ _ => step_of_decode_instr, fun _ _ _ _ => step_of_decode_reject, fun _ => step_of_waiting⟩

/-- Settles O6: the two lists of codes and the frame layouts give these words these instructions. -/
theorem wordsOfTheSpecDecode : Obligations.WordsOfTheSpecDecode := by
  unfold Obligations.WordsOfTheSpecDecode
  decide

/-- Settles O42: the reset empties the block, which keeps the invariant. -/
theorem resetStateIsSound : Obligations.ResetStateIsSound := by
  unfold Obligations.ResetStateIsSound
  exact ⟨reset_inv, fun s rest hs hin => ⟨_, step_of_reset hin, respond_inv _ (emptied_inv (input_inv rest hs))⟩⟩

/-! ## From effects to steps -/

/-- An instruction that completes leaves one of its effects with a response put on it; a refusal is the effect `same`. -/
theorem exec_effect {i : Instr} {s t : State} (h : exec i s = .next t) : ∃ u r, Effect i s u ∧ t = u.respond r := by
  obtain ⟨st, -, -, rfl⟩ | ⟨u, he, r, -, rfl⟩ := exec_outcomes h
  · exact ⟨s, errorResponse st, .same, rfl⟩
  · exact ⟨u, r, he, rfl⟩

/-- What neither the two ports nor any effect of an instruction breaks, no step breaks. The reset input has the effect
of `FREE`. -/
theorem step_keeps {P : State → Prop} (hinput : ∀ s l, P s → P { s with input := l })
    (hrespond : ∀ s r, P s → P (s.respond r)) (heffect : ∀ i s u, Effect i s u → P s → P u) {s t : State}
    (h : step s = .next t) (hs : P s) : P t := by
  obtain ⟨_, rfl⟩ | ⟨w, rest, st, _, _, rfl⟩ | ⟨rest, _, rfl⟩ | ⟨w, rest, i, _, _, h⟩ := step_cases h
  · exact hs
  · exact hrespond _ _ (hinput s rest hs)
  · exact hrespond _ _ (heffect _ _ _ (.emptied rfl) (hinput s rest hs))
  · obtain ⟨u, r, he, rfl⟩ := exec_effect h
    exact hrespond u r (heffect i _ u he (hinput s rest hs))

theorem effect_inv {i : Instr} {s u : State} (he : Effect i s u) (hs : s.Inv) : u.Inv := by
  cases he with
  | same => exact hs
  | opened z _ fits _ => exact opened_inv hs fits
  | emptied _ => exact emptied_inv hs
  | flagged f _ => exact setEvent_inv f hs
  | stored f slot p isOpen low high _ width _ _ => exact storeSlot_inv (setEvent_inv f hs) isOpen low high width

theorem step_inv {s t : State} (hs : s.Inv) (h : step s = .next t) : t.Inv :=
  step_keeps (P := State.Inv) (fun _ l => input_inv l) (fun _ r => respond_inv r) (fun _ _ _ => effect_inv) h hs

/-- Settles O43: every effect keeps the invariant, which does not speak of the ports. -/
theorem stepKeepsTheBlockSound : Obligations.StepKeepsTheBlockSound := by
  unfold Obligations.StepKeepsTheBlockSound
  exact fun s t hs h => step_inv hs h

theorem effect_cfg {i : Instr} {s u : State} (he : Effect i s u) : u.cfg = s.cfg := by
  cases he <;> rfl

/-- Settles O49: no effect writes the parameters. -/
theorem parametersNeverChange : Obligations.ParametersNeverChange := by
  unfold Obligations.ParametersNeverChange
  exact fun s t h => step_keeps (P := fun u => u.cfg = s.cfg) (fun _ _ hu => hu) (fun _ _ hu => hu)
    (fun _ _ _ he hu => (effect_cfg he).trans hu) h rfl

/-- The form of the two lists of the store (log 7, log 11). -/
def State.ListsFormed (s : State) : Prop := Memory.wf s.mem ∧ Bitmap.wf s.bits

theorem effect_listsFormed {i : Instr} {s u : State} (he : Effect i s u) (hs : s.ListsFormed) : u.ListsFormed := by
  obtain ⟨hmem, hbits⟩ := hs
  cases he with
  | same => exact ⟨hmem, hbits⟩
  | opened z _ _ _ => exact ⟨hmem, .nil⟩
  | emptied _ => exact ⟨hmem, .nil⟩
  | flagged f _ => exact ⟨hmem, hbits⟩
  | stored f slot p _ _ _ _ _ _ _ => exact ⟨memory_wf_writeBytes _ _ _ hmem, bitmap_wf_set _ _ hbits⟩

/-- Settles O52: every write to the RAM and every bit set keeps its list rising. -/
theorem memoryKeepsItsForm : Obligations.MemoryKeepsItsForm := by
  unfold Obligations.MemoryKeepsItsForm
  exact fun s t hmem hbits h => step_keeps (P := State.ListsFormed) (fun _ _ hs => hs) (fun _ _ hs => hs)
    (fun _ _ _ => effect_listsFormed) h ⟨hmem, hbits⟩

/-! ## Flags (R26) -/

theorem setFlag_sticky {e f : BitVec 3} {j : Nat} (h : e.getLsbD j = true) : (setFlag e f).getLsbD j = true := by
  rw [setFlag, BitVec.getLsbD_or, h, Bool.true_or]

@[simp] theorem setFlag_zero (e : BitVec 3) : setFlag e 0 = e := BitVec.or_zero

/-- An instruction other than `FREE` sets flags, and none unless it is `RX_FRAME`. -/
theorem effect_events {i : Instr} {s u : State} (he : Effect i s u) (hi : i ≠ .free) :
    ∃ f, u.events = setFlag s.events f ∧ (isRxFrame i = false → f = 0) := by
  cases he with
  | same => exact ⟨0, (setFlag_zero _).symm, fun _ => rfl⟩
  | opened z _ _ _ => exact ⟨0, (setFlag_zero _).symm, fun _ => rfl⟩
  | emptied source => exact absurd source hi
  | flagged f source =>
    obtain ⟨g, rfl⟩ := source
    exact ⟨f, rfl, fun h => nomatch h⟩
  | stored f slot p _ _ _ _ _ _ source =>
    refine ⟨f, rfl, fun h => ?_⟩
    obtain ⟨g, rfl⟩ | ⟨hf, _⟩ := source
    · cases h
    · exact hf

theorem exec_events {i : Instr} {s t : State} (h : exec i s = .next t) (hi : i ≠ .free) :
    ∃ f, t.events = setFlag s.events f ∧ (isRxFrame i = false → f = 0) := by
  obtain ⟨u, r, he, rfl⟩ := exec_effect h
  rw [respond_events]
  exact effect_events he hi

/-- Settles O47: every instruction but `FREE` ends with the old flags and some more, so a step that clears a flag took
`FREE` or the reset input. -/
theorem eventFlagsAreSticky : Obligations.EventFlagsAreSticky := by
  unfold Obligations.EventFlagsAreSticky
  refine ⟨fun i s t h hi => ?_, fun s t h j hset hclear => ?_⟩
  · obtain ⟨f, hf, hzero⟩ := exec_events h hi
    exact ⟨fun j hj => hf ▸ setFlag_sticky hj, fun hrx => by rw [hf, hzero hrx, setFlag_zero]⟩
  · have hlost : ¬ t.events.getLsbD j = true := ne_true_of_eq_false hclear
    obtain ⟨_, rfl⟩ | ⟨w, rest, st, _, _, rfl⟩ | ⟨rest, hin | ⟨w, hin⟩, rfl⟩ | ⟨w, rest, i, hin, hd, h⟩ := step_cases h
    · exact absurd hset hlost
    · exact absurd hset hlost
    · exact .inl ⟨rest, hin⟩
    · exact .inr (.inl ⟨w, rest, hin⟩)
    · refine .inr (.inr ⟨w, rest, hin, ?_⟩)
      by_contra hne
      obtain ⟨f, hf, -⟩ := exec_events h fun hi => hne (hi ▸ hd)
      exact hlost (hf ▸ setFlag_sticky hset)

/-! ## Session registers and the counter (R22 to R25) -/

/-- Settles O55: of the effects left when `ALLOC` and `FREE` are taken away, only a store moves the counter, with the bit
of its slot, and only where that bit was 0. -/
theorem sessionRegistersHaveTheirWriters : Obligations.SessionRegistersHaveTheirWriters := by
  unfold Obligations.SessionRegistersHaveTheirWriters
  intro i s t h hfree halloc
  obtain ⟨u, r, he, rfl⟩ := exec_effect h
  cases he with
  | same => exact ⟨rfl, rfl, rfl, .inl ⟨rfl, fun _ => rfl⟩⟩
  | opened z _ _ source => exact absurd source (halloc z)
  | emptied source => exact absurd source hfree
  | flagged f _ => exact ⟨rfl, rfl, rfl, .inl ⟨rfl, fun _ => rfl⟩⟩
  | stored f slot p _ _ _ _ _ _ _ =>
    have hbit : ∀ x, (((s.setEvent f).storeSlot slot p).respond r).bit x = (x == slot || s.bit x) :=
      storeSlot_bit (s.setEvent f) slot p
    refine ⟨rfl, rfl, rfl, ?_⟩
    cases hb : s.bit slot with
    | true =>
      refine .inl ⟨if_pos hb, fun x => ?_⟩
      rw [hbit]
      by_cases hx : x = slot
      · rw [hx, hb, Bool.or_true]
      · rw [beq_false_of_ne hx, Bool.false_or]
    | false =>
      refine .inr ⟨if_neg (ne_true_of_eq_false hb), slot, hb, ?_, fun y hy => ?_⟩
      · rw [hbit, beq_self_eq_true, Bool.true_or]
      · rw [hbit, beq_false_of_ne hy, Bool.false_or]

/-! ## The one slot that is written (20_memory.md R58, 43_datapath.md R174 item 5) -/

/-- The bytes of the RAM outside the slot of the session that the instruction names stay as they are. -/
theorem effect_read {i : Instr} {s u : State} (he : Effect i s u) {a : Nat}
    (hout : ∀ slot, writtenSlot s.cfg.tags i = some slot → 1 ≤ slot → slot ≤ s.expectedCount.toNat →
      a < 29 * slot ∨ 29 * slot + 29 ≤ a) : Memory.read u.mem a = Memory.read s.mem a := by
  cases he with
  | same | opened _ _ _ _ | emptied _ | flagged _ _ => rfl
  | stored f slot p _ low high _ width named _ =>
    have := hout slot named low high
    rw [storeSlot_read (s.setEvent f) slot width, if_neg (by omega)]
    rfl

/-- A bit that is 1 was 1, or is that of the slot of the session that the instruction names. -/
theorem effect_bit {i : Instr} {s u : State} (he : Effect i s u) {x : Nat} (hx : u.bit x = true) :
    s.bit x = true ∨ writtenSlot s.cfg.tags i = some x ∧ 1 ≤ x ∧ x ≤ s.expectedCount.toNat := by
  cases he with
  | same | flagged _ _ => exact .inl hx
  | opened _ _ _ _ | emptied _ => cases hx
  | stored f slot p _ low high _ _ named _ =>
    rw [storeSlot_bit, Bool.or_eq_true, beq_iff_eq] at hx
    obtain rfl | hx := hx
    · exact .inr ⟨named, low, high⟩
    · exact .inl hx

/-- An instruction that names a slot to store into keeps every other bit. -/
theorem effect_otherBits {i : Instr} {s u : State} (he : Effect i s u) {slot : Nat}
    (hi : writtenSlot s.cfg.tags i = some slot) {x : Nat} (hx : x ≠ slot) : u.bit x = s.bit x := by
  cases he with
  | same | flagged _ _ => rfl
  | opened z _ _ source => subst source; cases hi
  | emptied source => subst source; cases hi
  | stored f slot' p _ _ _ _ _ named _ =>
    obtain rfl : slot' = slot := Option.some.inj (named.symm.trans hi)
    rw [storeSlot_bit, beq_false_of_ne hx, Bool.false_or]
    rfl

/-- A step runs an instruction, or it leaves the RAM and sets no bit. -/
theorem step_runs_or_stores_nothing {s t : State} (h : step s = .next t) :
    (∃ w rest i u r, s.input = .issue w :: rest ∧ decode s.cfg.tags w = .instr i
      ∧ Effect i { s with input := rest } u ∧ t = u.respond r)
    ∨ (∀ w rest i, s.input = .issue w :: rest → decode s.cfg.tags w ≠ .instr i)
      ∧ t.mem = s.mem ∧ ∀ x, t.bit x = true → s.bit x = true := by
  obtain ⟨hin, rfl⟩ | ⟨w, rest, st, hin, hd, rfl⟩ | ⟨rest, hin, rfl⟩ | ⟨w, rest, i, hin, hd, h⟩ := step_cases h
  · exact .inr ⟨fun w rest i hin' => (nomatch hin.symm.trans hin'), rfl, fun _ hx => hx⟩
  · refine .inr ⟨fun w' rest' i hin' => ?_, rfl, fun _ hx => hx⟩
    cases hin.symm.trans hin'
    rw [hd]
    exact Decoded.noConfusion
  · refine .inr ⟨fun w' rest' i hin' => ?_, rfl, fun _ hx => nomatch hx⟩
    obtain hin | ⟨w, hin⟩ := hin <;> cases hin.symm.trans hin'
  · obtain ⟨u, r, he, rfl⟩ := exec_effect h
    exact .inl ⟨w, rest, i, u, r, hin, hd, he, rfl⟩

/-- Settles O53: what a step stores, the effect of its instruction stores, and that is in the slot `writtenSlot` gives. -/
theorem onlySlotsOfTheSessionAreWritten : Obligations.OnlySlotsOfTheSessionAreWritten := by
  unfold Obligations.OnlySlotsOfTheSessionAreWritten
  intro s t h
  obtain ⟨w, rest, i, u, r, hin, hd, he, rfl⟩ | ⟨hnot, hmem, hbit⟩ := step_runs_or_stores_nothing h
  · refine ⟨fun a ha => effect_read he fun slot _ h1 h2 => ?_, fun x hx hset => ?_,
      fun w' rest' i' slot hin' hd' hslot => ?_, fun hnone => ?_⟩
    · have h2 : slot ≤ s.expectedCount.toNat := h2
      omega
    · obtain hold | ⟨-, h1, h2⟩ := effect_bit he hset
      · exact hold
      · have h2 : x ≤ s.expectedCount.toNat := h2
        omega
    · cases hin.symm.trans hin'
      cases hd.symm.trans hd'
      refine ⟨fun a ha => effect_read he fun slot' hslot' _ _ => ?_, fun x hx => effect_otherBits he hslot hx⟩
      cases hslot.symm.trans hslot'
      exact ha
    · have hnone := hnone w rest i hin hd
      refine ⟨fun a => effect_read he fun slot hslot => ?_, fun x hset => ?_⟩
      · cases hnone.symm.trans hslot
      · obtain hold | ⟨hslot, -, -⟩ := effect_bit he hset
        · exact hold
        · cases hnone.symm.trans hslot
  · exact ⟨fun a _ => by rw [hmem], fun x _ => hbit x, fun w rest i slot hin hd => absurd hd (hnot w rest i hin),
      fun _ => ⟨fun a => by rw [hmem], hbit⟩⟩

end Sys2Proof.Machine
end

section
/-! Statuses (60_exceptions.md R203): in a sound state every check ends in the first refusal that applies or goes on, so every
instruction completes and the block never stops. -/

namespace Sys2Proof.Machine

open Sys2Proof.Claims

/-- The operation completes, with this status. -/
def EndsWith (o : Result) (st : Status) : Prop := ∃ t, o = .next t ∧ t.response.status = st

theorem endsWith_done (s : State) (r : Response) : EndsWith (s.done r) r.status := ⟨_, rfl, rfl⟩

theorem endsWith_raise (s : State) (st : Status) : EndsWith (s.raise st) st := ⟨_, rfl, rfl⟩

/-- The length check comes first (item 2). -/
theorem endsWith_withLength {s : State} {admitted bad : Bool} {k : Result} {st : Status} (hbad : bad = !admitted)
    (hk : admitted = true → EndsWith k st) : EndsWith (s.withLength admitted k) (if bad = true then .badLen else st) := by
  subst hbad
  cases admitted with
  | false => exact endsWith_raise s .badLen
  | true => exact hk rfl

/-- A length up to a bound is bad when it is above the bound. -/
theorem decide_lt_eq_not_decide_le (n m : Nat) : decide (n < m) = !decide (m ≤ n) := by
  rw [← decide_not, Bool.eq_iff_iff, decide_eq_true_iff, decide_eq_true_iff, Nat.not_le]

theorem endsWith_withSlot {s : State} (hs : s.Inv) {seq : U16} {k : Nat → Result} {st : Status}
    (hk : s.allocated = true → 1 ≤ seq.toNat → seq.toNat ≤ s.expectedCount.toNat → EndsWith (k seq.toNat) st) :
    EndsWith (s.withSlot seq k)
      (if s.allocated = false then .notAllocated
        else if seq.toNat = 0 ∨ seq.toNat > s.expectedCount.toNat then .range else st) := by
  split
  · next ha => exact withSlot_notAllocated seq k ha ▸ endsWith_raise s _
  · next ha =>
    have ha : s.allocated = true := eq_true_of_ne_false ha
    split
    · next hr => exact withSlot_range k ha (hr.imp_left Nat.lt_one_iff.2) ▸ endsWith_raise s _
    · next hr =>
      obtain ⟨h1, h2⟩ : 1 ≤ seq.toNat ∧ seq.toNat ≤ s.expectedCount.toNat := by omega
      exact withSlot_ok k ha h1 h2 (inv_depth hs ha h2) ▸ hk ha h1 h2

/-- A count in range is what the operation answers for; the checks before it are the same for all. -/
theorem endsWith_withCount {s : State} {c : U16} {k : Nat → Result} {st : Status}
    (hk : s.allocated = true → c.toNat ≤ s.expectedCount.toNat → EndsWith (s.withCount c k) st) :
    EndsWith (s.withCount c k)
      (if s.allocated = false then .notAllocated else if c.toNat > s.expectedCount.toNat then .range else st) := by
  split
  · next ha => exact withCount_notAllocated c k ha ▸ endsWith_raise s _
  · next ha =>
    have ha : s.allocated = true := eq_true_of_ne_false ha
    split
    · next hr => exact withCount_range k ha hr ▸ endsWith_raise s _
    · next hr => exact hk ha (Nat.not_lt.1 hr)

/-- A set slot of a sound state holds a value, so past the bit there is no fault. -/
theorem endsWith_withStored {s : State} (hs : s.Inv) {seq : U16} {k : List Byte → Result} {st : Status}
    (hk : ∀ p, EndsWith (k p) st) :
    EndsWith (s.withStored seq k)
      (if s.allocated = false then .notAllocated
        else if seq.toNat = 0 ∨ seq.toNat > s.expectedCount.toNat then .range
        else if s.bit seq.toNat = false then .unwritten else st) := by
  refine endsWith_withSlot hs fun ha h1 h2 => ?_
  cases hb : s.bit seq.toNat with
  | false => exact endsWith_raise s .unwritten
  | true =>
    obtain ⟨p, hp⟩ := inv_readSlot hs hb
    simp only [hp, if_true]
    exact hk p

theorem endsWith_alloc (s : State) (z : U32) : EndsWith (exec (.alloc z) s) (firstStatus (.alloc z) s) := by
  have hstatus : firstStatus (.alloc z) s = if s.allocated = true then .busy
      else if s.cfg.storeDepth < (z.toNat + 28) / 29 + 1 then .tooLarge else .ok := rfl
  rw [hstatus]
  split
  · next ha => exact exec_alloc_busy z ha ▸ endsWith_raise s .busy
  · next ha =>
    rw [exec_alloc_closed z (eq_false_of_ne_true ha)]
    split
    · next hz => exact if_pos hz ▸ endsWith_raise s .tooLarge
    · next hz => exact if_neg hz ▸ endsWith_done _ _

/-- Over set slots `ASSEMBLE` answers a run of bytes and its length, the empty one for `h = 0`. -/
theorem answers_assemble {s : State} {h : U16} (hs : s.Inv) (ha : s.allocated = true)
    (hN : h.toNat ≤ s.expectedCount.toNat) (hall : ∀ x, 1 ≤ x → x ≤ h.toNat → s.bit x = true) :
    ∃ q, answers (.assemble h) s { r := BitVec.ofNat 32 q.length, q := q } := by
  obtain h0 | h1 := Nat.eq_zero_or_pos h.toNat
  · exact ⟨[], answers_assemble_zero hs ha hN hall h0⟩
  · obtain ⟨q, hq, -⟩ := answers_assemble_pos hs ha hN hall h1
    exact ⟨q, hq⟩

theorem slotIds_any_unset (s : State) (c : Nat) :
    (slotIds c).any (fun x => !s.bit x) = true ↔ ∃ x, 1 ≤ x ∧ x ≤ c ∧ s.bit x = false := by
  simp [mem_slotIds, and_assoc]

theorem endsWith_assemble {s : State} (hs : s.Inv) (h : U16) :
    EndsWith (exec (.assemble h) s) (firstStatus (.assemble h) s) := by
  rw [exec_assemble, execAssemble]
  refine endsWith_withCount fun ha hN => ?_
  split
  · next hgap => exact ⟨_, refusedWith_assemble_incomplete hs ha hN ((slotIds_any_unset s _).1 hgap), rfl⟩
  · next hgap =>
    have hall : ∀ x, 1 ≤ x → x ≤ h.toNat → s.bit x = true := fun x h1 h2 => eq_true_of_ne_false fun hb =>
      hgap ((slotIds_any_unset s _).2 ⟨x, h1, h2, hb⟩)
    obtain ⟨q, hq⟩ := answers_assemble hs ha hN hall
    exact ⟨_, hq, rfl⟩

/-- Past the range check every branch of the data arm completes with `OK`. -/
theorem endsWith_receiveData {s : State} (hs : s.Inv) {seq : U16} (hseq : 1 ≤ seq.toNat) (p : List Byte) (ok : Bool)
    (pkt : Packet) : EndsWith (receiveData seq p ok pkt s)
      (if s.allocated = false then .notAllocated else if seq.toNat > s.expectedCount.toNat then .range else .ok) := by
  have hrange : (seq.toNat = 0 ∨ seq.toNat > s.expectedCount.toNat) ↔ seq.toNat > s.expectedCount.toNat :=
    or_iff_right (Nat.one_le_iff_ne_zero.1 hseq)
  rw [← if_congr hrange rfl rfl]
  refine endsWith_withSlot hs fun _ _ _ => ?_
  split
  · exact endsWith_done _ _
  · split <;> exact endsWith_done _ _

theorem endsWith_rxFrame {s : State} (hs : s.Inv) (f : List Byte) :
    EndsWith (exec (.rxFrame f) s) (firstStatus (.rxFrame f) s) := by
  refine endsWith_withLength rfl fun _ => ?_
  dsimp only
  generalize hd : decodePacket s.cfg.tags f = pkt
  cases pkt with
  | data seq p ck ok => exact endsWith_receiveData hs (decodePacket_data_id_pos hd) p ok _
  | start _ | retransmitRequest _ _ | allClear | prematureEnd | endPacket _ | junk _ => exact endsWith_done _ _

/-- Every instruction completes in a sound state, with the first status that applies. -/
theorem exec_endsWith_firstStatus (i : Instr) {s : State} (hs : s.Inv) : EndsWith (exec i s) (firstStatus i s) := by
  cases i with
  | frameData _ _ _ | frameStart _ | frameRetransmitRequest _ _ | frameAllClear | framePrematureEnd | frameEnd _
  | frameJunk _ | encStart _ | encAllclear | encPremend | encEnd _ | free | stat => exact endsWith_done _ _
  | encData _ _ | encRreq _ _ | fletcher8 _ =>
    exact endsWith_withLength (decide_lt_eq_not_decide_le _ _) fun _ => endsWith_done _ _
  | decode _ | verify _ => exact endsWith_withLength rfl fun _ => endsWith_done _ _
  | alloc z => exact endsWith_alloc s z
  | put seq p | txData seq p =>
    exact endsWith_withLength (decide_lt_eq_not_decide_le _ _) fun _ =>
      endsWith_withSlot hs fun _ _ _ => endsWith_done _ _
  | get seq | retx seq => exact endsWith_withStored hs fun _ => endsWith_done _ _
  | test seq =>
    rw [exec_test, execTest]
    exact endsWith_withSlot hs fun _ _ _ => endsWith_done _ _
  | missing c =>
    rw [exec_missing, execMissing]
    exact endsWith_withCount fun ha hc => ⟨_, answers_missing hs ha hc, rfl⟩
  | assemble h => exact endsWith_assemble hs h
  | rxFrame f => exact endsWith_rxFrame hs f

/-- Settles O46: the checks of every instruction are made in the fixed order. -/
theorem statusIsTheFirstThatApplies : Obligations.StatusIsTheFirstThatApplies := by
  unfold Obligations.StatusIsTheFirstThatApplies
  exact fun i s hs => exec_endsWith_firstStatus i hs

theorem exec_completes (i : Instr) {s : State} (hs : s.Inv) : ∃ t, exec i s = .next t := by
  obtain ⟨t, h, -⟩ := exec_endsWith_firstStatus i hs
  exact ⟨t, h⟩

/-- Whatever the host does next, a sound block takes the step. -/
theorem step_completes {s : State} (hs : s.Inv) : ∃ t, step s = .next t := by
  cases hin : s.input with
  | nil => exact ⟨s, step_of_waiting hin⟩
  | cons e rest =>
    cases e with
    | reset => exact ⟨_, step_of_reset hin⟩
    | resetDuring w => exact ⟨_, step_of_resetDuring hin⟩
    | issue w =>
      cases hd : decode s.cfg.tags w with
      | reject st => exact ⟨_, step_of_decode_reject hin hd⟩
      | instr i =>
        obtain ⟨t, h⟩ := exec_completes i (input_inv rest hs)
        exact ⟨t, (step_of_decode_instr hin hd).trans h⟩

/-- Settles O44: by induction on the number of steps, each of which a sound block takes and stays sound. -/
theorem noInputStopsTheBlock : Obligations.NoInputStopsTheBlock := by
  unfold Obligations.NoInputStopsTheBlock
  intro s hs k
  induction k generalizing s with
  | zero => exact ⟨s, rfl, hs⟩
  | succ k ih =>
    obtain ⟨t, h⟩ := step_completes hs
    rw [core_run_succ h]
    exact ih t (step_inv hs h)

end Sys2Proof.Machine
end

section
/-! What the block does not look at: one argument for every relation between states that the operations cannot see. Two
states that read alike end every instruction alike, and the relation the updates keep holds between the two ends. It is
used for the flags (10_state.md R26), the checksum policy (41_checksum.md R135) and leftover bytes (20_memory.md R59). -/

namespace Sys2Proof.Machine

open Sys2Proof.Claims

/-- Whenever the first operation completes, so does the second, and the two ends are related. -/
def EndsAlike (R : State → State → Prop) (o o' : Result) : Prop :=
  ∀ s', o = .next s' → ∃ t', o' = .next t' ∧ R s' t'

/-- Every update of the state keeps the relation. -/
structure KeptByUpdates (R : State → State → Prop) : Prop where
  respond : ∀ {s t}, R s t → ∀ r, R (s.respond r) (t.respond r)
  setEvent : ∀ {s t}, R s t → ∀ f, R (s.setEvent f) (t.setEvent f)
  emptied : ∀ {s t}, R s t → R s.emptied t.emptied
  opened : ∀ {s t}, R s t → ∀ z, R (s.opened z) (t.opened z)
  storeSlot : ∀ {s t}, R s t → ∀ slot p, p.length = 29 → R (s.storeSlot slot p) (t.storeSlot slot p)

/-- The two states show an operation other than `STAT` and `RX_FRAME` the same: the checks, the bits, and the bytes
wherever the bits let one read. -/
structure ReadsAlike (s t : State) : Prop where
  allocated : t.allocated = s.allocated
  expectedCount : t.expectedCount = s.expectedCount
  storeDepth : t.cfg.storeDepth = s.cfg.storeDepth
  tags : t.cfg.tags = s.cfg.tags
  bit : t.bit = s.bit
  tail : assembleTail t = assembleTail s
  slot : ∀ x, s.bit x = true → t.readSlot x = s.readSlot x
  run : ∀ h, s.allocated = true → 1 ≤ h → h ≤ s.expectedCount.toNat → (slotIds h).all s.bit = true →
    Memory.readBytes t.mem (slotAddr 1) (payloadWidth * (h - 1) + assembleTail s h)
      = Memory.readBytes s.mem (slotAddr 1) (payloadWidth * (h - 1) + assembleTail s h)

section checks

variable {R : State → State → Prop} (hR : KeptByUpdates R) {s t : State} (hst : R s t)

theorem endsAlike_fault (f : Fault) (o : Result) : EndsAlike R (.fault f) o := fun _ h => nomatch h

include hR

theorem endsAlike_done {u v : State} (huv : R u v) (r : Response) : EndsAlike R (u.done r) (v.done r) := by
  intro s' h
  cases h
  exact ⟨_, rfl, hR.respond huv r⟩

include hst

theorem endsAlike_raise (st : Status) : EndsAlike R (s.raise st) (t.raise st) :=
  endsAlike_done hR hst (errorResponse st)

theorem endsAlike_withLength (admitted : Bool) {k k' : Result} (hk : admitted = true → EndsAlike R k k') :
    EndsAlike R (s.withLength admitted k) (t.withLength admitted k') := by
  cases admitted with
  | false => exact endsAlike_raise hR hst .badLen
  | true => exact hk rfl

variable (h : ReadsAlike s t)

include h

theorem endsAlike_withSlot (seq : U16) {k k' : Nat → Result} (hk : EndsAlike R (k seq.toNat) (k' seq.toNat)) :
    EndsAlike R (s.withSlot seq k) (t.withSlot seq k') := by
  rw [State.withSlot, State.withSlot, h.allocated, h.expectedCount, h.storeDepth]
  split
  · exact endsAlike_raise hR hst .notAllocated
  · split
    · exact endsAlike_raise hR hst .range
    · split
      · exact endsAlike_fault _ _
      · exact hk

theorem endsAlike_withCount (c : U16) {k k' : Nat → Result}
    (hk : s.allocated = true → c.toNat ≤ s.expectedCount.toNat → EndsAlike R (k c.toNat) (k' c.toNat)) :
    EndsAlike R (s.withCount c k) (t.withCount c k') := by
  rw [State.withCount, State.withCount, h.allocated, h.expectedCount, h.storeDepth]
  split
  · exact endsAlike_raise hR hst .notAllocated
  · next ha =>
    split
    · exact endsAlike_raise hR hst .range
    · next hc =>
      split
      · exact endsAlike_fault _ _
      · exact hk (eq_true_of_ne_false ha) (Nat.not_lt.1 hc)

theorem endsAlike_withStored (seq : U16) {k k' : List Byte → Result} (hk : ∀ p, EndsAlike R (k p) (k' p)) :
    EndsAlike R (s.withStored seq k) (t.withStored seq k') := by
  refine endsAlike_withSlot hR hst h seq ?_
  rw [h.bit]
  split
  · next hb =>
    rw [h.slot _ hb]
    cases s.readSlot seq.toNat with
    | none => exact endsAlike_fault _ _
    | some p => exact hk p
  · exact endsAlike_raise hR hst .unwritten

theorem endsAlike_alloc (z : U32) : EndsAlike R (exec (.alloc z) s) (exec (.alloc z) t) := by
  change EndsAlike R (execAlloc z s) (execAlloc z t)
  rw [execAlloc, execAlloc, h.allocated, h.storeDepth]
  split
  · exact endsAlike_raise hR hst .busy
  · split
    · exact endsAlike_raise hR hst .tooLarge
    · exact endsAlike_done hR (hR.opened hst z) _

theorem endsAlike_assemble (c : U16) : EndsAlike R (exec (.assemble c) s) (exec (.assemble c) t) := by
  rw [exec_assemble, exec_assemble, execAssemble, execAssemble]
  refine endsAlike_withCount hR hst h c fun ha hc => ?_
  rw [h.bit, h.tail]
  split
  · next hall =>
    split
    · exact endsAlike_done hR hst _
    · next h0 =>
      dsimp only
      rw [h.run _ ha (Nat.one_le_iff_ne_zero.2 h0) hc hall]
      split
      · exact endsAlike_done hR hst _
      · exact endsAlike_fault _ _
  · exact endsAlike_raise hR hst .incomplete

/-- The data arm reads the policy only where the checksum does not match. -/
theorem endsAlike_receiveData (seq : U16) {p : List Byte} (hp : p.length = 29) {ok : Bool} (pkt : Packet)
    (hpol : ok = true ∨ t.cfg.policy = s.cfg.policy) :
    EndsAlike R (receiveData seq p ok pkt s) (receiveData seq p ok pkt t) := by
  have hdrop : (ok = false ∧ t.cfg.policy = .drop) = (ok = false ∧ s.cfg.policy = .drop) := by
    obtain rfl | hpol := hpol
    · simp
    · rw [hpol]
  have hnote : R (s.noteChecksum ok) (t.noteChecksum ok) := by
    rw [noteChecksum_eq, noteChecksum_eq]
    exact hR.setEvent hst _
  refine endsAlike_withSlot hR hst h seq ?_
  simp only [h.bit, hdrop]
  split
  · exact endsAlike_done hR hnote _
  · split
    · exact endsAlike_done hR (hR.setEvent hnote _) _
    · exact endsAlike_done hR (hR.storeSlot hnote _ p hp) _

/-- `RX_FRAME` ends alike unless it is given a data frame whose checksum does not match and the policies differ. -/
theorem endsAlike_rxFrame (f : List Byte)
    (hpol : t.cfg.policy = s.cfg.policy ∨ f.length ≠ 32
      ∨ (∀ seq pay ck ok, decodePacket s.cfg.tags f ≠ .data seq pay ck ok)
      ∨ ckMatches (framePayload f) (frameLast f) = true) :
    EndsAlike R (exec (.rxFrame f) s) (exec (.rxFrame f) t) := by
  refine endsAlike_withLength hR hst _ fun hlen => ?_
  have hlen : f.length = 32 := beq_iff_eq.1 hlen
  rw [h.tags]
  generalize hd : decodePacket s.cfg.tags f = pkt at hpol ⊢
  cases pkt with
  | junk g => exact endsAlike_done hR (hR.setEvent hst junkSeen) _
  | start _ | retransmitRequest _ _ | allClear | prematureEnd | endPacket _ => exact endsAlike_done hR hst _
  | data seq p ck ok =>
    have hp : p.length = 29 := by rw [decodePacket_payload hd, framePayload_length hlen]
    refine endsAlike_receiveData hR hst h seq hp _ ?_
    obtain hpol | hbad | hnot | hck := hpol
    · exact .inr hpol
    · exact absurd hlen hbad
    · exact absurd rfl (hnot seq p ck ok)
    · refine .inl ?_
      rw [decodePacket_data _ (byteAt_zero_ne_of_decodePacket_data hd)] at hd
      cases hd
      exact hck

/-- States that read alike end every instruction alike, `STAT` if the registers it answers agree too, and `RX_FRAME` as
above. -/
theorem exec_endsAlike (i : Instr) (hstat : i = .stat → t.statBytes = s.statBytes)
    (hrx : ∀ f, i = .rxFrame f → t.cfg.policy = s.cfg.policy ∨ f.length ≠ 32
      ∨ (∀ seq pay ck ok, decodePacket s.cfg.tags f ≠ .data seq pay ck ok)
      ∨ ckMatches (framePayload f) (frameLast f) = true) : EndsAlike R (exec i s) (exec i t) := by
  have hdone : ∀ r, EndsAlike R (s.done r) (t.done r) := endsAlike_done hR hst
  cases i with
  | frameData _ _ _ | frameStart _ | frameRetransmitRequest _ _ | frameAllClear | framePrematureEnd | frameEnd _
  | frameJunk _ => exact hdone _
  | encStart _ | encAllclear | encPremend | encEnd _ =>
    simp only [exec, execEncStart, execEncAllclear, execEncPremend, execEncEnd, h.tags]
    exact hdone _
  | encData _ _ | fletcher8 _ | verify _ => exact endsAlike_withLength hR hst _ fun _ => hdone _
  | encRreq _ _ | decode _ =>
    refine endsAlike_withLength hR hst _ fun _ => ?_
    rw [h.tags]
    exact hdone _
  | alloc z => exact endsAlike_alloc hR hst h z
  | free => exact endsAlike_done hR (hR.emptied hst) _
  | put seq p | txData seq p =>
    refine endsAlike_withLength hR hst _ fun hp => endsAlike_withSlot hR hst h seq ?_
    exact endsAlike_done hR (hR.storeSlot hst _ _ (pad29_length (of_decide_eq_true hp))) _
  | get seq | retx seq => exact endsAlike_withStored hR hst h seq fun _ => hdone _
  | test seq =>
    rw [exec_test, exec_test, execTest, execTest, h.bit]
    exact endsAlike_withSlot hR hst h seq (hdone _)
  | missing c =>
    rw [exec_missing, exec_missing, execMissing, execMissing, h.bit]
    exact endsAlike_withCount hR hst h c fun _ _ => hdone _
  | assemble c => exact endsAlike_assemble hR hst h c
  | stat =>
    change EndsAlike R (s.done { q := s.statBytes }) (t.done { q := t.statBytes })
    rw [hstat rfl]
    exact hdone _
  | rxFrame f => exact endsAlike_rxFrame hR hst h f (hrx f rfl)

end checks

/-! ## The flags (R26) -/

/-- The second state is the first with other flags. -/
def SameButEvents (s t : State) : Prop := ∃ e, t = { s with events := e }

theorem sameButEvents_kept : KeptByUpdates SameButEvents where
  respond := by rintro s _ ⟨e, rfl⟩ r; exact ⟨e, rfl⟩
  setEvent := by rintro s _ ⟨e, rfl⟩ f; exact ⟨setFlag e f, rfl⟩
  emptied := by rintro s _ ⟨e, rfl⟩; exact ⟨0, rfl⟩
  opened := by rintro s _ ⟨e, rfl⟩ z; exact ⟨e, rfl⟩
  storeSlot := by rintro s _ ⟨e, rfl⟩ slot p _; exact ⟨e, rfl⟩

theorem readsAlike_events (s : State) (e : BitVec 3) : ReadsAlike s { s with events := e } :=
  ⟨rfl, rfl, rfl, rfl, rfl, rfl, fun _ _ => rfl, fun _ _ _ _ _ => rfl⟩

/-- Settles O48: a state with other flags reads alike. -/
theorem flagsChangeNoBehaviour : Obligations.FlagsChangeNoBehaviour := by
  unfold Obligations.FlagsChangeNoBehaviour
  intro i s t e hstat h
  obtain ⟨_, hexec, e', rfl⟩ := exec_endsAlike sameButEvents_kept ⟨e, rfl⟩ (readsAlike_events s e) i
    (fun hi => absurd hi hstat) (fun _ _ => .inl rfl) t h
  exact ⟨e', hexec⟩

/-! ## The checksum policy (R135) -/

/-- The state with another checksum policy. -/
def State.withPolicy (s : State) (pol : ChecksumPolicy) : State := { s with cfg := { s.cfg with policy := pol } }

theorem withPolicy_kept (pol : ChecksumPolicy) : KeptByUpdates fun s t => t = s.withPolicy pol where
  respond := by rintro s _ rfl r; rfl
  setEvent := by rintro s _ rfl f; rfl
  emptied := by rintro s _ rfl; rfl
  opened := by rintro s _ rfl z; rfl
  storeSlot := by rintro s _ rfl slot p _; rfl

theorem readsAlike_withPolicy (s : State) (pol : ChecksumPolicy) : ReadsAlike s (s.withPolicy pol) :=
  ⟨rfl, rfl, rfl, rfl, rfl, rfl, fun _ _ => rfl, fun _ _ _ _ _ => rfl⟩

/-- Settles O50: a state with another policy reads alike, and the frames named are those whose arm does not come to the
policy. -/
theorem policyIsReadByRxFrameOnly : Obligations.PolicyIsReadByRxFrameOnly := by
  unfold Obligations.PolicyIsReadByRxFrameOnly
  intro i s t pol hi h
  obtain ⟨_, hexec, rfl⟩ := exec_endsAlike (withPolicy_kept pol) rfl (readsAlike_withPolicy s pol) i (fun _ => rfl)
    (fun f hf => by
      subst hf
      obtain hi | ⟨_, hf, hframe⟩ := hi
      · cases hi
      · cases hf
        exact .inr hframe) t h
  exact hexec

/-! ## Leftover bytes (R59) -/

/-- A store writes the same bytes into both memories and leaves the other slots. -/
theorem sameStored_storeSlot {s t : State} (h : sameStored s t) (slot : Nat) {p : List Byte} (hp : p.length = 29) :
    sameStored (s.storeSlot slot p) (t.storeSlot slot p) where
  registers := by
    obtain ⟨hreg, -⟩ := h
    rw [hreg]
    rfl
  bytes x hx k hk := by
    rw [storeSlot_read s slot hp, storeSlot_read t slot hp]
    by_cases hxs : x = slot
    · rw [if_pos (by omega), if_pos (by omega)]
    · rw [storeSlot_bit, beq_false_of_ne hxs, Bool.false_or] at hx
      rw [if_neg (by omega), if_neg (by omega), h.bytes x hx k hk]

/-- Registers change alike in both states, and of the updates only a store touches the RAM. -/
theorem sameStored_kept : KeptByUpdates sameStored where
  respond h r := ⟨congrArg (State.respond · r) h.registers, h.bytes⟩
  setEvent h f := ⟨congrArg (State.setEvent · f) h.registers, h.bytes⟩
  emptied h := ⟨congrArg State.emptied h.registers, fun _ hx => nomatch hx⟩
  opened h z := ⟨congrArg (State.opened · z) h.registers, fun _ hx => nomatch hx⟩
  storeSlot h slot _ hp := sameStored_storeSlot h slot hp

/-- Byte `j` of the run that begins at slot 1 is byte `j % 29` of slot `1 + j / 29`. -/
theorem slotAddr_one_add (j : Nat) : slotAddr 1 + j = 29 * (1 + j / 29) + j % 29 := by
  simp only [slotAddr, payloadWidth]
  omega

/-- What does not depend on the RAM is the same in both states. -/
theorem sameStored_congr {α : Type} {s t : State} (h : sameStored s t) (f : State → α)
    (hf : ∀ m, f { s with mem := m } = f s) : f t = f s :=
  (congrArg f h.registers).trans (hf t.mem)

theorem readsAlike_of_sameStored {s t : State} (hs : s.Inv) (h : sameStored s t) : ReadsAlike s t where
  allocated := sameStored_congr h State.allocated fun _ => rfl
  expectedCount := sameStored_congr h State.expectedCount fun _ => rfl
  storeDepth := sameStored_congr h (fun u => u.cfg.storeDepth) fun _ => rfl
  tags := sameStored_congr h (fun u => u.cfg.tags) fun _ => rfl
  bit := sameStored_congr h State.bit fun _ => rfl
  tail := sameStored_congr h assembleTail fun _ => rfl
  slot x hx := (memory_readBytes_congr _ _ _ _ (h.bytes x hx)).symm
  run c ha h1 hc hall := by
    have htail := (inv_assembleTail hs ha h1).2
    have hbit := (slotIds_all_bit s c).1 hall
    refine (memory_readBytes_congr _ _ _ _ fun k hk => ?_).symm
    simp only [payloadWidth] at hk
    rw [slotAddr_one_add]
    exact h.bytes _ (hbit _ (by omega) (by omega)) _ (Nat.mod_lt _ (by decide))

/-- Settles O51: a sound state reads bytes of set slots alone, so one with other leftover bytes reads alike. -/
theorem leftoverBytesAreNotObservable : Obligations.LeftoverBytesAreNotObservable := by
  unfold Obligations.LeftoverBytesAreNotObservable
  intro i s t s' hs _ hst h
  have hpol : t.cfg.policy = s.cfg.policy := sameStored_congr hst (fun u => u.cfg.policy) fun _ => rfl
  have hstat : t.statBytes = s.statBytes := sameStored_congr hst State.statBytes fun _ => rfl
  exact exec_endsAlike sameStored_kept hst (readsAlike_of_sameStored hs hst) i (fun _ => hstat) (fun _ _ => .inl hpol)
    s' h

end Sys2Proof.Machine
end

section
/-! What the checksum is and what it misses (41_checksum.md R131, R136): its closed form, and that it reads the low nibbles
alone and takes every value. -/

namespace Sys2Proof.Machine

open Sys2Proof.Claims

/-! ## The closed form (R131) -/

/-- The sum of the bytes. -/
def byteSum (bytes : List Byte) : Nat := ((List.range bytes.length).map fun i => num bytes i).sum

/-- The sum of the bytes, each as often as there are bytes from it to the end. -/
def weightedSum (bytes : List Byte) : Nat :=
  ((List.range bytes.length).map fun i => (bytes.length - i) * num bytes i).sum

theorem num_append_of_lt {bytes : List Byte} {i : Nat} (h : i < bytes.length) (b : Byte) :
    num (bytes ++ [b]) i = num bytes i :=
  congrArg BitVec.toNat (List.getD_append _ _ _ _ h)

theorem num_append_length (bytes : List Byte) (b : Byte) : num (bytes ++ [b]) bytes.length = b.toNat := by
  simp [num]

theorem byteSum_append_singleton (bytes : List Byte) (b : Byte) :
    byteSum (bytes ++ [b]) = byteSum bytes + b.toNat := by
  have hinit : (List.range bytes.length).map (fun i => num (bytes ++ [b]) i)
      = (List.range bytes.length).map fun i => num bytes i :=
    List.map_congr_left fun i hi => num_append_of_lt (List.mem_range.1 hi) b
  simp [byteSum, List.range_succ, hinit, num_append_length]

/-- One more byte adds every byte once more, and itself. -/
theorem weightedSum_append_singleton (bytes : List Byte) (b : Byte) :
    weightedSum (bytes ++ [b]) = weightedSum bytes + byteSum (bytes ++ [b]) := by
  have hinit : (List.range bytes.length).map (fun i => (bytes.length + 1 - i) * num (bytes ++ [b]) i)
      = (List.range bytes.length).map fun i => (bytes.length - i) * num bytes i + num bytes i := by
    refine List.map_congr_left fun i hi => ?_
    have hi : i < bytes.length := List.mem_range.1 hi
    rw [num_append_of_lt hi, Nat.succ_sub hi.le, Nat.succ_mul]
  rw [byteSum_append_singleton, ← Nat.add_assoc, weightedSum, weightedSum, byteSum, ← List.sum_map_add]
  simp [List.range_succ, hinit, num_append_length]

/-- The running sums are the two sums modulo 16. -/
theorem fletcherSums_eq (bytes : List Byte) : fletcherSums bytes = (byteSum bytes % 16, weightedSum bytes % 16) := by
  induction bytes using List.reverseRecOn with
  | nil => rfl
  | append_singleton bytes b ih =>
    rw [fletcherSums_append_singleton, ih, weightedSum_append_singleton, byteSum_append_singleton]
    simp [fletcherStep]

/-- Settles O15: the nibbles of the checksum are the running sums, which have the closed form. -/
theorem fletcherClosedForm : Obligations.FletcherClosedForm := by
  unfold Obligations.FletcherClosedForm
  intro bytes
  rw [fletcher8_toNat, fletcherSums_eq]
  rfl

/-! ## High nibbles are not seen (R136 item 3) -/

/-- A byte with its high nibble cleared. -/
def lowNibble (b : Byte) : Byte := BitVec.ofNat 8 (b.toNat % 16)

/-- A nibble is its own byte. -/
theorem ofNat_mod_toNat (n : Nat) : (BitVec.ofNat 8 (n % 16)).toNat = n % 16 := by
  rw [BitVec.toNat_ofNat]
  omega

theorem fletcherStep_lowNibble (sums : Nat × Nat) (b : Byte) : fletcherStep sums (lowNibble b) = fletcherStep sums b := by
  rw [fletcherStep, fletcherStep, lowNibble, ofNat_mod_toNat, Nat.add_mod_mod]

theorem fletcher8_map_lowNibble (bytes : List Byte) : fletcher8 (bytes.map lowNibble) = fletcher8 bytes := by
  simp [fletcher8, List.foldl_map, fletcherStep_lowNibble]

theorem fletcher8_eq_of_lowNibbles {x y : List Byte} (hlen : x.length = y.length)
    (h : ∀ i, num x i % 16 = num y i % 16) : fletcher8 x = fletcher8 y := by
  have hmap : x.map lowNibble = y.map lowNibble := by
    refine List.ext_getElem (by simp [hlen]) fun i hx hy => ?_
    have hi := h i
    rw [List.length_map] at hx hy
    rw [num, num, List.getD_eq_getElem _ _ hx, List.getD_eq_getElem _ _ hy] at hi
    rw [List.getElem_map, List.getElem_map, lowNibble, lowNibble, hi]
  rw [← fletcher8_map_lowNibble x, hmap, fletcher8_map_lowNibble]

/-- A byte of the payload field of a frame. -/
theorem framePayload_num (f : List Byte) (i : Nat) : num (framePayload f) i = if i < 29 then num f (2 + i) else 0 := by
  unfold num framePayload
  split
  · next h => simp [List.getD_eq_getElem?_getD, List.getElem?_take_of_lt h]
  · next h => simp [List.getD_eq_getElem?_getD, h]

/-- Settles O16: the two running sums take each byte modulo 16, and `VERIFY` compares the checksum of the payload field
with the last byte. -/
theorem fletcherIgnoresHighNibbles : Obligations.FletcherIgnoresHighNibbles := by
  unfold Obligations.FletcherIgnoresHighNibbles
  refine ⟨fun x y => fletcher8_eq_of_lowNibbles, fun s f g hf hg hlast h => ?_⟩
  have hpay : fletcher8 (framePayload f) = fletcher8 (framePayload g) := by
    refine fletcher8_eq_of_lowNibbles (by rw [framePayload_length hf, framePayload_length hg]) fun i => ?_
    rw [framePayload_num, framePayload_num]
    split
    · exact h _ (by omega) (by omega)
    · rfl
  have hverdict : verdict f = verdict g := by
    rw [verdict, verdict, ckMatches, ckMatches, hpay, frameLast, frameLast, byteAt, byteAt, hlast]
  exact (answers_verify s hf).trans (hverdict ▸ (answers_verify s hg).symm)

/-! ## Every value is taken (R136 item 5) -/

theorem fletcher8_pair_toNat (a b : Byte) :
    (fletcher8 [a, b]).toNat = (a.toNat + b.toNat) % 16 + 16 * ((2 * a.toNat + b.toNat) % 16) := by
  rw [fletcher8_toNat]
  simp only [fletcherSums, List.foldl_cons, List.foldl_nil, fletcherStep]
  omega

/-- Nibbles `lo` and `hi` are the running sums of two bytes: their difference and what is left to the low one. -/
theorem fletcher8_pair_of_nibbles {lo hi : Nat} (hlo : lo < 16) (hhi : hi < 16) {a b : Byte}
    (ha : a.toNat = (hi + 16 - lo) % 16) (hb : b.toNat = (2 * lo + 16 - hi) % 16) :
    (fletcher8 [a, b]).toNat = lo + 16 * hi := by
  have hsum1 : (a.toNat + b.toNat) % 16 = lo := by omega
  have hsum2 : (2 * a.toNat + b.toNat) % 16 = hi := by omega
  rw [fletcher8_pair_toNat, hsum1, hsum2]

/-- Settles O17: two bytes are solved for from the nibbles of the value. -/
theorem everyByteIsAChecksum : Obligations.EveryByteIsAChecksum := by
  unfold Obligations.EveryByteIsAChecksum
  intro v
  have ha := ofNat_mod_toNat (v.toNat / 16 + 16 - v.toNat % 16)
  have hb := ofNat_mod_toNat (2 * (v.toNat % 16) + 16 - v.toNat / 16)
  have hhi : v.toNat / 16 < 16 := Nat.div_lt_of_lt_mul v.isLt
  refine ⟨_, _, ha ▸ Nat.mod_lt _ (by decide), hb ▸ Nat.mod_lt _ (by decide), BitVec.eq_of_toNat_eq ?_⟩
  rw [fletcher8_pair_of_nibbles (Nat.mod_lt _ (by decide)) hhi ha hb, Nat.mod_add_div]

end Sys2Proof.Machine
end

section
/-! How the store operations fit together (42_packet_store.md R150): what is missing and what is set make the count, a read
gives back what was stored, and slots that hold their parts of a file assemble to the file. -/

namespace Sys2Proof.Machine

open Sys2Proof.Claims

/-! ## Missing and complete (items 1 to 3) -/

theorem slotBytes_eq_nil_iff (ids : List Nat) : slotBytes ids = [] ↔ ids = [] := by
  rw [← List.length_eq_zero_iff, slotBytes_length, ← List.length_eq_zero_iff]
  omega

theorem missingIds_eq_nil_iff (s : State) (c : Nat) :
    s.missingIds c = [] ↔ ∀ x, 1 ≤ x → x ≤ c → s.bit x = true := by
  simp [List.eq_nil_iff_forall_not_mem, mem_missingIds]

/-- The ids missing from `1..c` and the set ones make `c`. -/
theorem missingIds_length_add_setBits (s : State) (c : Nat) : (s.missingIds c).length + s.setBits c = c :=
  slotIds_missing_add_set s.bit c

/-- The counter of a sound state is `N` exactly when nothing is missing. -/
theorem missingIds_eq_nil_iff_storedCount {s : State} (hs : s.Inv) :
    s.missingIds s.expectedCount.toNat = [] ↔ s.storedCount = s.expectedCount := by
  have hsum := missingIds_length_add_setBits s s.expectedCount.toNat
  have hcount := hs.sound.counted
  rw [← List.length_eq_zero_iff, ← BitVec.toNat_inj]
  omega

theorem firstStatus_assemble_expectedCount {s : State} (ha : s.allocated = true) :
    firstStatus (.assemble s.expectedCount) s ≠ .incomplete
      ↔ ∀ x, 1 ≤ x → x ≤ s.expectedCount.toNat → s.bit x = true := by
  have hgap := slotIds_any_unset s s.expectedCount.toNat
  have hstatus : firstStatus (.assemble s.expectedCount) s
      = if (slotIds s.expectedCount.toNat).any (fun x => !s.bit x) = true then .incomplete else .ok := by
    simp [firstStatus, badLength, ha]
  rw [hstatus, ite_ne_left_iff, hgap]
  simp

/-- Settles O29: what `MISSING N` lists is empty exactly when the set bits are all of `1..N`, which is what the counter
says and what `ASSEMBLE N` checks. -/
theorem missingIsEmptyWhenComplete : Obligations.MissingIsEmptyWhenComplete := by
  unfold Obligations.MissingIsEmptyWhenComplete
  intro s hs ha
  have hq : slotBytes (s.missingIds s.expectedCount.toNat) = []
      ↔ ∀ x, 1 ≤ x → x ≤ s.expectedCount.toNat → s.bit x = true :=
    (slotBytes_eq_nil_iff _).trans (missingIds_eq_nil_iff s _)
  obtain ⟨u, hu, hstatus⟩ := exec_endsWith_firstStatus (.assemble s.expectedCount) hs
  refine ⟨_, u, answers_missing hs ha (Nat.le_refl _), hu, hq, ?_, ?_, fun c hc => ⟨_, answers_missing hs ha hc, ?_⟩⟩
  · exact (slotBytes_eq_nil_iff _).trans (missingIds_eq_nil_iff_storedCount hs)
  · rw [hstatus]
    exact hq.trans (firstStatus_assemble_expectedCount ha).symm
  · have hlen := missingIds_length_le s c.toNat
    have hc := c.isLt
    change (BitVec.ofNat 32 (s.missingIds c.toNat).length).toNat + s.setBits c.toNat = c.toNat
    rw [BitVec.toNat_ofNat, Nat.mod_eq_of_lt (by omega)]
    exact missingIds_length_add_setBits s c.toNat

/-! ## What was stored is read (item 6) -/

/-- A slot of the session that was just stored passes the checks of a read. -/
theorem withStored_storeSlot {s : State} {seq : U16} {p : List Byte} (k : List Byte → Result) (hp : p.length = 29)
    (ha : s.allocated = true) (h1 : 1 ≤ seq.toNat) (h2 : seq.toNat ≤ s.expectedCount.toNat)
    (h3 : seq.toNat < s.cfg.storeDepth) : (s.storeSlot seq.toNat p).withStored seq k = k p :=
  withStored_ok (s := s.storeSlot seq.toNat p) k ha h1 h2 h3 (by simp [storeSlot_bit])
    (storeSlot_readSlot_same s seq.toNat hp)

/-- Settles O30: `PUT` stores the padded payload in the slot that `GET` then reads. -/
theorem putThenGetAnswersThePayload : Obligations.PutThenGetAnswersThePayload := by
  unfold Obligations.PutThenGetAnswersThePayload
  intro s seq p hs ha h1 h2 hp
  have h3 := inv_depth hs ha h2
  refine ⟨_, exec_put_ok hp ha h1 h2 h3, ?_⟩
  rw [answers, exec_respond]
  exact withStored_storeSlot _ (pad29_length hp) ha h1 h2 h3

/-! ## A file in its slots (items 4 and 5) -/

/-- Byte `k` of the padded part of packet `x` is byte `29*(x-1) + k` of the file. -/
theorem pad29_chunk_getD {file : List Byte} {x k : Nat} (hk : k < 29) (hfile : 29 * (x - 1) + k < file.length) :
    (pad29 (chunk file x)).getD k 0 = file.getD (29 * (x - 1) + k) 0 := by
  have hlen : k < (chunk file x).length := by
    simp only [chunk, List.length_take, List.length_drop]
    omega
  rw [pad29_getD, padded, if_pos hlen]
  simp [chunk, List.getD_eq_getElem?_getD, List.getElem?_take_of_lt hk]

theorem chunk_length_le (file : List Byte) (x : Nat) : (chunk file x).length ≤ payloadWidth :=
  List.length_take_le _ _

/-- Every slot of the session is stored and holds its part of the file. -/
def State.HoldsFile (s : State) (file : List Byte) : Prop :=
  ∀ x, 1 ≤ x → x ≤ s.expectedCount.toNat → s.bit x = true ∧ s.readSlot x = some (pad29 (chunk file x))

/-- The slots that hold a file are adjacent, so the RAM holds it from slot 1 on. -/
theorem readBytes_of_holdsFile {s : State} {file : List Byte} (hfile : s.HoldsFile file)
    (hsize : file.length ≤ 29 * s.expectedCount.toNat) :
    Memory.readBytes s.mem (slotAddr 1) file.length = some file := by
  refine (memory_readBytes_eq_some _ _ _ _).2 ⟨rfl, fun j hj => ?_⟩
  obtain ⟨-, hslot⟩ := hfile (1 + j / 29) (by omega) (by omega)
  have hplace : 29 * (1 + j / 29 - 1) + j % 29 = j := by omega
  have hmod : j % 29 < 29 := Nat.mod_lt _ (by decide)
  rw [slotAddr_one_add, (readSlot_eq_some hslot).2 _ hmod, pad29_chunk_getD hmod (by rwa [hplace]), hplace]

/-- `ASSEMBLE N` answers the file its slots hold. -/
theorem answers_assemble_file {s : State} {file : List Byte} (hs : s.Inv) (ha : s.allocated = true)
    (hsize : s.fileSize.toNat = file.length) (hfile : s.HoldsFile file) :
    answers (.assemble s.expectedCount) s { r := BitVec.ofNat 32 file.length, q := file } := by
  have hall : ∀ x, 1 ≤ x → x ≤ s.expectedCount.toNat → s.bit x = true := fun x h1 h2 => (hfile x h1 h2).1
  obtain h0 | h1 := Nat.eq_zero_or_pos s.expectedCount.toNat
  · have hempty : file = [] := by
      have hN := hs.sound.sized ha
      simp only [packetCount, payloadWidth] at hN
      exact List.length_eq_zero_iff.1 (by omega)
    subst hempty
    exact answers_assemble_zero hs ha (Nat.le_refl _) hall h0
  · obtain ⟨hsum, -, hle⟩ := inv_lastLen hs ha h1
    obtain ⟨q, hans, hq⟩ := answers_assemble_pos hs ha (Nat.le_refl _) hall h1
    rw [assembleTail_last rfl, hsum, hsize, readBytes_of_holdsFile hfile (by omega)] at hq
    cases hq
    exact hans

/-- Settles O31: the one run `ASSEMBLE N` reads has the length of the file and holds it. -/
theorem assembleReturnsTheFile : Obligations.AssembleReturnsTheFile := by
  unfold Obligations.AssembleReturnsTheFile
  exact fun s file hs ha hsize hfile => answers_assemble_file hs ha hsize hfile

end Sys2Proof.Machine
end

section
/-! The data path against its primitives and over a transfer (43_datapath.md R170, R174): the composites are their
primitives, a frame carries its slot from one block to another, and every frame of a file once is the file. -/

namespace Sys2Proof.Machine

open Sys2Proof.Claims

/-! ## TX_DATA and RETX (R171, R172) -/

/-- A `TX_DATA` that answers `OK` passed every check, stored the padded payload and answered its frame. -/
theorem exec_txData_cases_of_ok {s t : State} {seq : U16} {p : List Byte} (h : exec (.txData seq p) s = .next t)
    (hok : t.response.status = .ok) :
    p.length ≤ payloadWidth ∧ s.allocated = true ∧ 1 ≤ seq.toNat ∧ seq.toNat ≤ s.expectedCount.toNat
      ∧ seq.toNat < s.cfg.storeDepth
      ∧ t = (s.storeSlot seq.toNat (pad29 p)).respond { q := dataFrame seq (pad29 p) } := by
  obtain ⟨_, rfl⟩ | ⟨hp, h⟩ := withLength_next h
  · cases hok
  · obtain ⟨_, rfl⟩ | ⟨_, _, rfl⟩ | ⟨ha, h1, h2, h3, h⟩ := withSlot_next h
    · cases hok
    · cases hok
    · cases h
      exact ⟨of_decide_eq_true hp, ha, h1, h2, h3, rfl⟩

/-- `TX_DATA` is refused where `PUT` is, for both make the same checks. -/
theorem exec_txData_of_put_refused {s t : State} {seq : U16} {p : List Byte} (h : exec (.put seq p) s = .next t)
    (hst : t.response.status ≠ .ok) : exec (.txData seq p) s = .next t := by
  obtain ⟨hp, rfl⟩ | ⟨hp, h⟩ := withLength_next h
  · exact withLength_gt s _ (Nat.not_le.1 (of_decide_eq_false hp))
  · refine (withLength_le s _ (of_decide_eq_true hp)).trans ?_
    obtain ⟨ha, rfl⟩ | ⟨ha, hr, rfl⟩ | ⟨_, _, _, _, h⟩ := withSlot_next h
    · exact withSlot_notAllocated seq _ ha
    · exact withSlot_range _ ha hr
    · cases h
      exact absurd rfl hst

theorem pad29_of_length {p : List Byte} (hp : p.length = 29) : pad29 p = p := by
  simp [pad29, hp, payloadWidth]

/-- `RETX` answers the frame of what `GET` answers, and is refused where `GET` is. -/
theorem exec_retx_of_get {s t : State} {seq : U16} (h : exec (.get seq) s = .next t) :
    (t.response.status = .ok → exec (.retx seq) s = exec (.encData seq t.response.q) t)
      ∧ (t.response.status ≠ .ok → exec (.retx seq) s = .next t) := by
  obtain ⟨ha, rfl⟩ | ⟨ha, hr, rfl⟩ | ⟨ha, h1, h2, h3, hb, rfl⟩ | ⟨ha, h1, h2, h3, hb, p, hp, h⟩ := withStored_next h
  · exact ⟨fun hok => (nomatch hok), fun _ => withStored_notAllocated seq _ ha⟩
  · exact ⟨fun hok => (nomatch hok), fun _ => withStored_range _ ha (hr.imp_left Nat.lt_one_iff.1)⟩
  · exact ⟨fun hok => (nomatch hok), fun _ => withStored_unwritten _ ha h1 h2 h3 hb⟩
  · cases h
    refine ⟨fun _ => ?_, fun hst => absurd rfl hst⟩
    have hlen : p.length = 29 := (readSlot_eq_some hp).1
    have hretx : exec (.retx seq) s = s.done { q := dataFrame seq p } := withStored_ok _ ha h1 h2 h3 hb hp
    have henc := answers_encData s seq (Nat.le_of_eq hlen)
    rw [pad29_of_length hlen] at henc
    rw [hretx, exec_respond]
    exact henc.symm

/-- Settles O39: `TX_DATA` stored the payload whose frame it answered, and `RETX` frames what is stored. -/
theorem retxRepeatsTxData : Obligations.RetxRepeatsTxData := by
  unfold Obligations.RetxRepeatsTxData
  intro s t seq p hs h hok
  obtain ⟨hp, ha, h1, h2, h3, rfl⟩ := exec_txData_cases_of_ok h hok
  rw [answers, exec_respond]
  exact withStored_storeSlot _ (pad29_length hp) ha h1 h2 h3

/-! ## What RX_FRAME can do (R173) -/

/-- How `RX_FRAME` of `f` ends: refused; with flags set at most; or with the slot of a new data frame stored, the one end
whose outcome is `STORED`. -/
inductive Received (s : State) (f : List Byte) : State → Prop where
  | refused (st : Status) (notOk : st ≠ .ok) : Received s f (s.refuse st)
  | flagged (fl : BitVec 3) (o : RxOutcome) (notStored : o ≠ .stored) :
      Received s f ((s.setEvent fl).respond { outcome := some o, pkt := some (decodePacket s.cfg.tags f) })
  | stored (fl : BitVec 3) {seq : U16} {p : List Byte} {ck : Byte} {ok : Bool}
      (packet : decodePacket s.cfg.tags f = .data seq p ck ok) (low : 1 ≤ seq.toNat)
      (high : seq.toNat ≤ s.expectedCount.toNat) (new : s.bit seq.toNat = false) :
      Received s f (((s.setEvent fl).storeSlot seq.toNat p).respond
        { outcome := some .stored, pkt := some (decodePacket s.cfg.tags f) })

theorem receiveData_received {s t : State} {f p : List Byte} {seq : U16} {ck : Byte} {ok : Bool}
    (hd : decodePacket s.cfg.tags f = .data seq p ck ok)
    (h : receiveData seq p ok (decodePacket s.cfg.tags f) s = .next t) : Received s f t := by
  obtain ⟨_, rfl⟩ | ⟨_, _, rfl⟩ | ⟨_, h1, h2, _, h⟩ := withSlot_next h
  · exact .refused _ (by decide)
  · exact .refused _ (by decide)
  · rw [noteChecksum_eq, setEvent_setEvent] at h
    split at h
    · cases h
      exact .flagged _ _ (by decide)
    · split at h
      · cases h
        exact .flagged _ _ (by decide)
      · next hb =>
        cases h
        exact .stored _ hd h1 h2 (eq_false_of_ne_true hb)

theorem exec_rxFrame_received {s t : State} {f : List Byte} (h : exec (.rxFrame f) s = .next t) : Received s f t := by
  obtain ⟨_, rfl⟩ | ⟨_, h⟩ := withLength_next h
  · exact .refused _ (by decide)
  · have hcontrol : Received s f (s.respond { outcome := some .control, pkt := some (decodePacket s.cfg.tags f) }) := by
      have hflagged : Received s f _ := .flagged 0#3 .control (by decide)
      rwa [setEvent_zero] at hflagged
    cases hd : decodePacket s.cfg.tags f with
    | data seq p ck ok =>
      refine receiveData_received hd ?_
      rw [hd] at h ⊢
      exact h
    | junk g =>
      rw [hd] at h
      cases h
      rw [← hd]
      exact .flagged junkSeen .junk (by decide)
    | start _ | endPacket _ | retransmitRequest _ _ | allClear | prematureEnd =>
      rw [hd] at h hcontrol
      cases h
      exact hcontrol

/-- Settles O35: each composite makes the checks of its first half and then what the second half makes. -/
theorem compositesAreTheirPrimitives : Obligations.CompositesAreTheirPrimitives := by
  unfold Obligations.CompositesAreTheirPrimitives
  refine ⟨fun s t seq p h => ⟨fun hok => ?_, exec_txData_of_put_refused h⟩, fun s t seq h => exec_retx_of_get h,
    fun s t u f h hdec hok => ?_⟩
  · obtain ⟨hp, ha, h1, h2, h3, rfl⟩ := exec_put_cases_of_ok h hok
    rw [exec_respond, exec_txData_ok hp ha h1 h2 h3]
    exact (answers_encData _ seq hp).symm
  · by_cases hf : f.length = 32
    · cases (answers_decode s hf).symm.trans hdec
      cases exec_rxFrame_received h with
      | refused st notOk => exact absurd hok notOk
      | flagged _ _ _ | stored _ _ _ _ _ => rfl
    · cases (refusedWith_rxFrame s hf).symm.trans h
      cases hok

/-- Settles O37: only the end whose outcome is `STORED` stores, and it stores a slot whose bit was 0. -/
theorem counterCountsStoredOutcomes : Obligations.CounterCountsStoredOutcomes := by
  unfold Obligations.CounterCountsStoredOutcomes
  intro s t f hs h
  cases exec_rxFrame_received h with
  | refused st _ => rfl
  | flagged fl o notStored => simp [notStored]
  | @stored fl seq p ck ok packet low high new =>
    have hcount := storeSlot_count (p := p) (setEvent_inv fl hs) low high
    rw [setEvent_bit, new] at hcount
    exact hcount

/-! ## Ids with a zero low byte (R174 item 3) -/

theorem decodePacket_data_id_low {t : Tags} {f p : List Byte} {seq : U16} {ck : Byte} {ok : Bool}
    (h : decodePacket t f = .data seq p ck ok) : seq.toNat % 256 ≠ 0 := by
  have h0 := byteAt_zero_ne_of_decodePacket_data h
  rw [decodePacket_data t h0] at h
  cases h
  have hlow : (byteAt f 0).toNat ≠ 0 := mt (byteAt_eq_zero_iff f 0).2 h0
  have hlt := (byteAt f 0).isLt
  rw [le16_toNat]
  omega

/-- Settles O40: a frame that is stored decodes as data, so its id has a nonzero low byte; and a bit of the session that is
0 makes `ASSEMBLE N` incomplete. -/
theorem aliasedIdsAreNeverReceived : Obligations.AliasedIdsAreNeverReceived := by
  unfold Obligations.AliasedIdsAreNeverReceived
  refine fun s x hs hx hb => ⟨fun f t h => ?_, fun ha h1 h2 =>
    refusedWith_assemble_incomplete hs ha (Nat.le_refl _) ⟨x, h1, h2, hb⟩⟩
  cases exec_rxFrame_received h with
  | refused _ _ | flagged _ _ _ => exact hb
  | @stored fl seq p ck ok packet _ _ _ =>
    have hne : x ≠ seq.toNat := fun heq => decodePacket_data_id_low packet (heq ▸ hx)
    rw [respond_bit, storeSlot_bit, beq_false_of_ne hne, Bool.false_or]
    exact hb

/-! ## A data frame received (R174 item 1) -/

section dataFrame

variable {s : State} {seq : U16} {p : List Byte} (hs : s.Inv) (ha : s.allocated = true)
  (h2 : seq.toNat ≤ s.expectedCount.toNat) (hseq : seq.toNat % 256 ≠ 0) (hp : p.length = 29)

include hseq hp

/-- A data frame with its own checksum goes to the data arm, whose policy it passes. -/
theorem exec_rxFrame_dataFrame : exec (.rxFrame (dataFrame seq p)) s
    = receiveData seq p true (.data seq p (fletcher8 p) true) s := by
  have hlen : (dataFrame seq p).length = 32 := dataFrameWith_length seq _ hp
  rw [exec_rxFrame s hlen, decodePacket_dataFrame _ hseq hp]
  rfl

include hs ha h2

theorem exec_rxFrame_dataFrame_new (hb : s.bit seq.toNat = false) : exec (.rxFrame (dataFrame seq p)) s
    = .next ((s.storeSlot seq.toNat p).respond
      { outcome := some .stored, pkt := some (.data seq p (fletcher8 p) true) }) := by
  have h1 : 1 ≤ seq.toNat := by omega
  exact (exec_rxFrame_dataFrame hseq hp).trans (receiveData_stored p _ ha h1 h2 (inv_depth hs ha h2) (.inl rfl) hb)

theorem exec_rxFrame_dataFrame_again (hb : s.bit seq.toNat = true) : exec (.rxFrame (dataFrame seq p)) s
    = .next ((s.setEvent dupSeen).respond
      { outcome := some .duplicate, pkt := some (.data seq p (fletcher8 p) true) }) := by
  have h1 : 1 ≤ seq.toNat := by omega
  exact (exec_rxFrame_dataFrame hseq hp).trans (receiveData_duplicate p _ ha h1 h2 (inv_depth hs ha h2) (.inl rfl) hb)

end dataFrame

/-- Settles O38: the frame that `TX_DATA` answers decodes as data whatever the receiver's parameters are, and its checksum
matches, so the first one is stored and the second finds its bit set. -/
theorem frameTransferIsFaithful : Obligations.FrameTransferIsFaithful := by
  unfold Obligations.FrameTransferIsFaithful
  intro a b a' seq p ha hb hopenA hopenB hsize h1 h2 hseq hp hnew h
  have hlen : (pad29 p).length = 29 := pad29_length hp
  have hN : seq.toNat ≤ b.expectedCount.toNat := by
    rwa [hb.sound.sized hopenB, hsize, ← ha.sound.sized hopenA]
  cases (exec_txData_ok hp hopenA h1 h2 (inv_depth ha hopenA h2)).symm.trans h
  have hstored : (b.storeSlot seq.toNat (pad29 p)).Inv := storeSlot_inv hb hopenB h1 hN hlen
  have hslot := storeSlot_readSlot_same b seq.toNat hlen
  refine ⟨_, _, exec_rxFrame_dataFrame_new hb hopenB hN hseq hlen hnew, rfl, ?_, ?_,
    exec_rxFrame_dataFrame_again (respond_inv _ hstored) hopenB hN hseq hlen ?_, rfl, rfl⟩
  · exact hslot.trans (storeSlot_readSlot_same a seq.toNat hlen).symm
  · exact Option.isSome_iff_exists.2 ⟨_, hslot⟩
  · simp [storeSlot_bit]

/-! ## A file received (R174 item 2) -/

/-- A receiver on the way to a file: sound and open for a file of that size, with the parts of the file in the slots whose
bit is 1. -/
structure Receiving (file : List Byte) (s : State) : Prop where
  inv : s.Inv
  isOpen : s.allocated = true
  size : s.fileSize.toNat = file.length
  few : s.expectedCount.toNat ≤ 255
  parts : ∀ x, s.bit x = true → s.readSlot x = some (pad29 (chunk file x))

/-- A frame of the file with the number of a slot of the session, or a frame that decodes as junk. -/
def FileOrJunk (file : List Byte) (s : State) (f : List Byte) : Prop :=
  (∃ x, 1 ≤ x ∧ x ≤ s.expectedCount.toNat ∧ f = fileFrame file x)
    ∨ (f.length = 32 ∧ ∃ g, decodePacket s.cfg.tags f = .junk g)

/-- The later state has every bit of the earlier one, and the same session and parameters. -/
structure Continues (s t : State) : Prop where
  cfg : t.cfg = s.cfg
  expectedCount : t.expectedCount = s.expectedCount
  bits : ∀ x, s.bit x = true → t.bit x = true

theorem continues_refl (s : State) : Continues s s := ⟨rfl, rfl, fun _ h => h⟩

theorem continues_flagged (s : State) (fl : BitVec 3) (r : Response) : Continues s ((s.setEvent fl).respond r) :=
  ⟨rfl, rfl, fun _ h => h⟩

theorem continues_trans {s t u : State} (h : Continues s t) (h' : Continues t u) : Continues s u :=
  ⟨h'.cfg.trans h.cfg, h'.expectedCount.trans h.expectedCount, fun x hx => h'.bits x (h.bits x hx)⟩

theorem fileOrJunk_of_continues {file f : List Byte} {s t : State} (h : Continues s t) (hf : FileOrJunk file s f) :
    FileOrJunk file t f := by
  rw [FileOrJunk, h.cfg, h.expectedCount]
  exact hf

section receive

variable {file : List Byte} {s : State} (hs : Receiving file s)

include hs

/-- Flags and responses do not matter to a receiver. -/
theorem receiving_flagged (fl : BitVec 3) (r : Response) : Receiving file ((s.setEvent fl).respond r) :=
  ⟨respond_inv r (setEvent_inv fl hs.inv), hs.isOpen, hs.size, hs.few, hs.parts⟩

theorem receiving_stored {x : Nat} (h1 : 1 ≤ x) (h2 : x ≤ s.expectedCount.toNat) (r : Response) :
    Receiving file ((s.storeSlot x (pad29 (chunk file x))).respond r) := by
  have hlen : (pad29 (chunk file x)).length = 29 := pad29_length (chunk_length_le file x)
  refine ⟨respond_inv r (storeSlot_inv hs.inv hs.isOpen h1 h2 hlen), hs.isOpen, hs.size, hs.few, fun y hy => ?_⟩
  rw [respond_readSlot]
  by_cases hyx : y = x
  · rw [hyx, storeSlot_readSlot_same s x hlen]
  · rw [respond_bit, storeSlot_bit, beq_false_of_ne hyx, Bool.false_or] at hy
    rw [storeSlot_readSlot_other s x y hlen hyx, hs.parts y hy]

/-- A frame of the file sets the bit of its slot. With at most 255 packets no number has a zero low byte. -/
theorem exec_rxFrame_fileFrame {x : Nat} (h1 : 1 ≤ x) (h2 : x ≤ s.expectedCount.toNat) :
    ∃ t, exec (.rxFrame (fileFrame file x)) s = .next t ∧ Receiving file t ∧ Continues s t ∧ t.bit x = true := by
  have hfew := hs.few
  have hx : (BitVec.ofNat 16 x).toNat = x := by
    rw [BitVec.toNat_ofNat]
    omega
  have hseq : (BitVec.ofNat 16 x).toNat % 256 ≠ 0 := by omega
  have hN : (BitVec.ofNat 16 x).toNat ≤ s.expectedCount.toNat := by omega
  have hlen : (pad29 (chunk file x)).length = 29 := pad29_length (chunk_length_le file x)
  cases hb : s.bit x with
  | true =>
    have hexec := exec_rxFrame_dataFrame_again hs.inv hs.isOpen hN hseq hlen (by rwa [hx])
    exact ⟨_, hexec, receiving_flagged hs _ _, continues_flagged s _ _, hb⟩
  | false =>
    have hexec := exec_rxFrame_dataFrame_new hs.inv hs.isOpen hN hseq hlen (by rwa [hx])
    rw [hx] at hexec
    have hbits := storeSlot_bit s x (pad29 (chunk file x))
    refine ⟨_, hexec, receiving_stored hs h1 h2 _, ⟨rfl, rfl, fun y hy => ?_⟩, ?_⟩
    · exact (hbits y).trans (by rw [hy, Bool.or_true])
    · exact (hbits x).trans (by rw [beq_self_eq_true, Bool.true_or])

theorem exec_rxFrame_fileOrJunk {f : List Byte} (hf : FileOrJunk file s f) :
    ∃ t, exec (.rxFrame f) s = .next t ∧ Receiving file t ∧ Continues s t := by
  obtain ⟨x, h1, h2, rfl⟩ | ⟨hlen, g, hg⟩ := hf
  · obtain ⟨t, h, ht, hcont, -⟩ := exec_rxFrame_fileFrame hs h1 h2
    exact ⟨t, h, ht, hcont⟩
  · have hexec : exec (.rxFrame f) s = (s.setEvent junkSeen).done { outcome := some .junk, pkt := some (.junk g) } := by
      rw [exec_rxFrame s hlen, hg]
      rfl
    exact ⟨_, hexec, receiving_flagged hs _ _, continues_flagged s _ _⟩

end receive

/-- Every frame in the list is taken, and the bits of the file frames among them are set at the end. -/
theorem runAll_rxFrame {file : List Byte} {s : State} (hs : Receiving file s) (frames : List (List Byte))
    (hframes : ∀ f ∈ frames, FileOrJunk file s f) :
    ∃ t, runAll (frames.map .rxFrame) s = .next t ∧ Receiving file t ∧ Continues s t
      ∧ ∀ x, 1 ≤ x → x ≤ s.expectedCount.toNat → fileFrame file x ∈ frames → t.bit x = true := by
  induction frames generalizing s with
  | nil => exact ⟨s, rfl, hs, continues_refl s, fun _ _ _ hmem => nomatch hmem⟩
  | cons f frames ih =>
    obtain ⟨u, hu, hrec, hcont⟩ := exec_rxFrame_fileOrJunk hs (hframes f List.mem_cons_self)
    obtain ⟨t, ht, hrec', hcont', hbits⟩ := ih hrec fun f' hf' =>
      fileOrJunk_of_continues hcont (hframes f' (List.mem_cons_of_mem f hf'))
    refine ⟨t, ?_, hrec', continues_trans hcont hcont', fun x h1 h2 hmem => ?_⟩
    · rw [List.map_cons, runAll, hu]
      exact ht
    · obtain rfl | hmem := List.mem_cons.1 hmem
      · obtain ⟨u', hu', -, -, hb⟩ := exec_rxFrame_fileFrame hs h1 h2
        cases hu.symm.trans hu'
        exact hcont'.bits x hb
      · exact hbits x h1 (hcont.expectedCount ▸ h2) hmem

/-- An open sound block that has counted nothing has no bit set. -/
theorem bit_of_storedCount_zero {s : State} (hs : s.Inv) (h0 : s.storedCount = 0) (x : Nat) : s.bit x = false := by
  by_contra hb
  have hb : s.bit x = true := eq_true_of_ne_false hb
  have hmem : x ∈ (slotIds s.expectedCount.toNat).filter s.bit :=
    List.mem_filter.2 ⟨(mem_slotIds _ _).2 (hs.sound.inRange x hb), hb⟩
  have hpos := List.length_pos_of_mem hmem
  have hcount := hs.sound.counted
  rw [h0, State.setBits] at hcount
  exact absurd hcount (Nat.ne_of_lt hpos)

/-- Settles O41: by induction on the frames, each of which keeps the receiver on its way; at the end every bit is 1, so
nothing is missing and the slots hold the file. -/
theorem everyFrameOnceDeliversTheFile : Obligations.EveryFrameOnceDeliversTheFile := by
  unfold Obligations.EveryFrameOnceDeliversTheFile
  intro s file frames hs ha hsize hfew h0 hframes hall
  have hempty := bit_of_storedCount_zero hs h0
  have hstart : Receiving file s := ⟨hs, ha, hsize, hfew, fun x hx => by rw [hempty x] at hx; cases hx⟩
  obtain ⟨t, ht, hrec, hcont, hbits⟩ := runAll_rxFrame hstart frames hframes
  have hset : ∀ x, 1 ≤ x → x ≤ t.expectedCount.toNat → t.bit x = true := fun x h1 h2 => by
    rw [hcont.expectedCount] at h2
    exact hbits x h1 h2 (hall x h1 h2)
  have hnone : t.missingIds t.expectedCount.toNat = [] := (missingIds_eq_nil_iff t _).2 hset
  have hmissing := answers_missing hrec.inv hrec.isOpen (Nat.le_refl t.expectedCount.toNat)
  rw [hnone] at hmissing
  rw [← hcont.expectedCount]
  exact ⟨t, ht, (missingIds_eq_nil_iff_storedCount hrec.inv).1 hnone, hmissing,
    answers_assemble_file hrec.inv hrec.isOpen hrec.size fun x h1 h2 =>
      ⟨hset x h1 h2, hrec.parts x (hset x h1 h2)⟩⟩

end Sys2Proof.Machine
end
